-- ==== Sys2Proof/Word.lean ====
section
/-! DEFINITION. The word and byte types of the miniRV CPU (spec/00_scope.md R3). -/

namespace Sys2Proof

/-- A 32-bit word: XLEN is the width of a register, of an address and of the pc (R3). -/
abbrev Word := BitVec 32

/-- An 8-bit byte (R3). -/
abbrev Byte := BitVec 8

end Sys2Proof
end

