-- ==== Sys2Proof/Syntax.lean ====
section
/-! DEFINITION. The instructions of the miniRV CPU: one constructor per row of spec/opcode_table.json, with the
operands of the assembler syntax of spec/30_encoding.md R55. -/

namespace Sys2Proof

/-- The number of a general register, x0 to x15 (spec/10_state.md R10); x16 to x31 do not exist (R12). -/
abbrev Reg := Fin 16

/-- The eight instructions (spec/00_scope.md R1). An `imm` of type `Int` is the 12-bit signed immediate, the only signed
quantity of the hardware (R6); LUI's is the 20-bit number of R55. `WellFormed` states their ranges (R56); the decoder gives no other (DESIGN CHOICE, safe,
log entry 18). -/
inductive Instr where
  /-- `add rd, rs1, rs2` (spec/40_integer_computational.md R60) -/
  | add (rd rs1 rs2 : Reg)
  /-- `addi rd, rs1, imm` (R61) -/
  | addi (rd rs1 : Reg) (imm : Int)
  /-- `lui rd, imm` (R62) -/
  | lui (rd : Reg) (imm : Nat)
  /-- `lw rd, imm(rs1)` (spec/41_load_store.md R71) -/
  | lw (rd rs1 : Reg) (imm : Int)
  /-- `lbu rd, imm(rs1)` (R72) -/
  | lbu (rd rs1 : Reg) (imm : Int)
  /-- `sw rs2, imm(rs1)` (R73) -/
  | sw (rs2 rs1 : Reg) (imm : Int)
  /-- `sb rs2, imm(rs1)` (R74) -/
  | sb (rs2 rs1 : Reg) (imm : Int)
  /-- `jalr rd, imm(rs1)` (spec/42_jump.md R80) -/
  | jalr (rd rs1 : Reg) (imm : Int)
  deriving DecidableEq, Repr

end Sys2Proof
end

