-- ==== Sys2Proof/WellFormed.lean ====
section
/-! DEFINITION. Which instructions can be encoded: the operand ranges of spec/30_encoding.md R56. A register is in range
by its type. -/

namespace Sys2Proof

/-- A 12-bit signed immediate: -2048 to +2047 (R46, R47, R56). -/
def immFits (imm : Int) : Bool := decide (-2048 ≤ imm) && decide (imm ≤ 2047)

/-- LUI's 20-bit operand: 0 to 0xFFFFF (R55, R56). -/
def upperFits (imm : Nat) : Bool := decide (imm ≤ 0xFFFFF)

/-- The operands of the instruction can be encoded (R56). -/
def Instr.wf : Instr → Bool
  | .add _ _ _ => true
  | .addi _ _ imm => immFits imm
  | .lui _ imm => upperFits imm
  | .lw _ _ imm => immFits imm
  | .lbu _ _ imm => immFits imm
  | .sw _ _ imm => immFits imm
  | .sb _ _ imm => immFits imm
  | .jalr _ _ imm => immFits imm

end Sys2Proof
end

