-- ==== Sys2Proof/Decode.lean ====
section
/-! DEFINITION. Decoding and encoding (spec/30_encoding.md). Decoding is total: every word is one of the eight
instructions or is rejected with the reason (R50, R51, R52, R49). -/

namespace Sys2Proof

/-- The 32-bit word of four bytes, the byte at the lowest address in bits 7:0 (little-endian,
spec/20_memory.md R24; the spec's decision D1, UNVERIFIED, unsafe, log entry 7). -/
def leWord (b0 b1 b2 b3 : Byte) : Word := b3 ++ b2 ++ b1 ++ b0

/-- Byte `k` of a word, bits 8k+7:8k (R24). -/
def byteOf (v : Word) (k : Nat) : Byte := v.extractLsb' (8 * k) 8

/-- `opcode = inst[6:0]` (R41). -/
def opcodeField (w : Word) : BitVec 7 := w.extractLsb' 0 7

/-- `funct3 = inst[14:12]` (R41). -/
def funct3Field (w : Word) : BitVec 3 := w.extractLsb' 12 3

/-- `funct7 = inst[31:25]` (R41). -/
def funct7Field (w : Word) : BitVec 7 := w.extractLsb' 25 7

/-- The register that `rd = inst[11:7]` names: its low four bits (R41, R49). -/
def rdField (w : Word) : Reg := (w.extractLsb' 7 4).toFin

/-- The register that `rs1 = inst[19:15]` names: its low four bits (R41, R49). -/
def rs1Field (w : Word) : Reg := (w.extractLsb' 15 4).toFin

/-- The register that `rs2 = inst[24:20]` names: its low four bits (R41, R49). -/
def rs2Field (w : Word) : Reg := (w.extractLsb' 20 4).toFin

/-- The I-format immediate, `inst[31:20]` as a two's-complement number (R46). -/
def immIField (w : Word) : Int := (w.extractLsb' 20 12).toInt

/-- The S-format immediate, `inst[31:25] ++ inst[11:7]` as a two's-complement number (R47). -/
def immSField (w : Word) : Int := (w.extractLsb' 25 7 ++ w.extractLsb' 7 5).toInt

/-- The U-format immediate, the 20-bit field `inst[31:12]` (R48). -/
def immUField (w : Word) : Nat := (w.extractLsb' 12 20).toNat

/-- Why a word, or a list of bytes, is no instruction of the hardware (R52). Each is an IllegalInstruction when executed,
except `truncated`, which a fetch of four bytes never meets. -/
inductive Reject where
  /-- fewer than four bytes are given (R40) -/
  | truncated
  /-- the major opcode is none of R50's -/
  | unknownOpcode
  /-- the opcode is listed, its funct3 is not (R51) -/
  | unknownFunct3
  /-- opcode 0110011 with a funct7 other than 0000000 (R51) -/
  | unknownFunct7
  /-- a register field of the format has its top bit set: x16 to x31 do not exist (R49) -/
  | noSuchRegister
  deriving DecidableEq, Repr

/-- What decoding answers. -/
inductive Decoded (α : Type) where
  | instr (i : α)
  | illegal (why : Reject)
  deriving DecidableEq, Repr

/-- The R format's must-be-zero bits are inst[11], inst[19] and inst[24] (R42, R49). -/
def decodeR (w : Word) (mk : Reg → Reg → Reg → Instr) : Decoded Instr :=
  if w.getLsbD 11 || w.getLsbD 19 || w.getLsbD 24 then .illegal .noSuchRegister
  else .instr (mk (rdField w) (rs1Field w) (rs2Field w))

/-- The I format's must-be-zero bits are inst[11] and inst[19] (R43, R49). -/
def decodeI (w : Word) (mk : Reg → Reg → Int → Instr) : Decoded Instr :=
  if w.getLsbD 11 || w.getLsbD 19 then .illegal .noSuchRegister
  else .instr (mk (rdField w) (rs1Field w) (immIField w))

/-- The S format's must-be-zero bits are inst[19] and inst[24] (R44, R49). -/
def decodeS (w : Word) (mk : Reg → Reg → Int → Instr) : Decoded Instr :=
  if w.getLsbD 19 || w.getLsbD 24 then .illegal .noSuchRegister
  else .instr (mk (rs2Field w) (rs1Field w) (immSField w))

/-- The U format's must-be-zero bit is inst[11] (R45, R49). -/
def decodeU (w : Word) (mk : Reg → Nat → Instr) : Decoded Instr :=
  if w.getLsbD 11 then .illegal .noSuchRegister
  else .instr (mk (rdField w) (immUField w))

/-- The instruction of a word: by opcode, then funct3 where the format has one, then funct7 for the R format (R50);
every selecting field must match exactly (R51); every other word is illegal (R52). -/
def decodeWord (w : Word) : Decoded Instr :=
  if opcodeField w = 0b0110011#7 then
    if funct3Field w = 0b000#3 then
      if funct7Field w = 0b0000000#7 then decodeR w .add else .illegal .unknownFunct7
    else .illegal .unknownFunct3
  else if opcodeField w = 0b0010011#7 then
    if funct3Field w = 0b000#3 then decodeI w .addi else .illegal .unknownFunct3
  else if opcodeField w = 0b0110111#7 then decodeU w .lui
  else if opcodeField w = 0b0000011#7 then
    if funct3Field w = 0b010#3 then decodeI w .lw
    else if funct3Field w = 0b100#3 then decodeI w .lbu
    else .illegal .unknownFunct3
  else if opcodeField w = 0b0100011#7 then
    if funct3Field w = 0b010#3 then decodeS w .sw
    else if funct3Field w = 0b000#3 then decodeS w .sb
    else .illegal .unknownFunct3
  else if opcodeField w = 0b1100111#7 then
    if funct3Field w = 0b000#3 then decodeI w .jalr else .illegal .unknownFunct3
  else .illegal .unknownOpcode

/-- The instruction at the head of a list of bytes in ascending address order, and the bytes after it: four bytes, least
significant first (R40). -/
def decode : List Byte → Decoded (Instr × List Byte)
  | b0 :: b1 :: b2 :: b3 :: rest =>
    match decodeWord (leWord b0 b1 b2 b3) with
    | .instr i => .instr (i, rest)
    | .illegal why => .illegal why
  | _ => .illegal .truncated

/-- A register's number in its 5-bit specifier field, the top bit 0 (R49). -/
def regBits (r : Reg) : BitVec 5 := BitVec.ofNat 5 r.val

/-- A word of the R format: funct7, rs2, rs1, funct3, rd, opcode (R42). -/
def encodeR (funct7 : BitVec 7) (rs2 rs1 : Reg) (funct3 : BitVec 3) (rd : Reg) (opcode : BitVec 7) : Word :=
  funct7 ++ regBits rs2 ++ regBits rs1 ++ funct3 ++ regBits rd ++ opcode

/-- A word of the I format: imm[11:0], rs1, funct3, rd, opcode (R43). -/
def encodeI (imm : BitVec 12) (rs1 : Reg) (funct3 : BitVec 3) (rd : Reg) (opcode : BitVec 7) : Word :=
  imm ++ regBits rs1 ++ funct3 ++ regBits rd ++ opcode

/-- A word of the S format: imm[11:5], rs2, rs1, funct3, imm[4:0], opcode (R44). -/
def encodeS (imm : BitVec 12) (rs2 rs1 : Reg) (funct3 : BitVec 3) (opcode : BitVec 7) : Word :=
  imm.extractLsb' 5 7 ++ regBits rs2 ++ regBits rs1 ++ funct3 ++ imm.extractLsb' 0 5 ++ opcode

/-- A word of the U format: imm[31:12], rd, opcode (R45). -/
def encodeU (imm : BitVec 20) (rd : Reg) (opcode : BitVec 7) : Word :=
  imm ++ regBits rd ++ opcode

/-- The word of a well-formed instruction: the rows of R50 in the formats of R42 to R45. -/
def encode : Instr → Word
  | .add rd rs1 rs2 => encodeR 0b0000000 rs2 rs1 0b000 rd 0b0110011
  | .addi rd rs1 imm => encodeI (BitVec.ofInt 12 imm) rs1 0b000 rd 0b0010011
  | .lui rd imm => encodeU (BitVec.ofNat 20 imm) rd 0b0110111
  | .lw rd rs1 imm => encodeI (BitVec.ofInt 12 imm) rs1 0b010 rd 0b0000011
  | .lbu rd rs1 imm => encodeI (BitVec.ofInt 12 imm) rs1 0b100 rd 0b0000011
  | .sw rs2 rs1 imm => encodeS (BitVec.ofInt 12 imm) rs2 rs1 0b010 0b0100011
  | .sb rs2 rs1 imm => encodeS (BitVec.ofInt 12 imm) rs2 rs1 0b000 0b0100011
  | .jalr rd rs1 imm => encodeI (BitVec.ofInt 12 imm) rs1 0b000 rd 0b1100111

/-- The four bytes of a word in ascending address order (R24, R40). -/
def leBytes (w : Word) : List Byte := [byteOf w 0, byteOf w 1, byteOf w 2, byteOf w 3]

/-- The match value of the instruction's row in the opcode map (R50). -/
def rowMatch : Instr → Word
  | .add _ _ _ => 0x00000033
  | .addi _ _ _ => 0x00000013
  | .lui _ _ => 0x00000037
  | .lw _ _ _ => 0x00002003
  | .lbu _ _ _ => 0x00004003
  | .sw _ _ _ => 0x00002023
  | .sb _ _ _ => 0x00000023
  | .jalr _ _ _ => 0x00000067

/-- The mask of the instruction's row in the opcode map, the must-be-zero register bits of R49 folded in (R50). -/
def rowMask : Instr → Word
  | .add _ _ _ => 0xFF08787F
  | .addi _ _ _ => 0x0008787F
  | .lui _ _ => 0x0000087F
  | .lw _ _ _ => 0x0008787F
  | .lbu _ _ _ => 0x0008787F
  | .sw _ _ _ => 0x0108707F
  | .sb _ _ _ => 0x0108707F
  | .jalr _ _ _ => 0x0008787F

/-- The word that the table's numbering gives: bit 0 is the least significant bit of the first (and only) word, and every
bit from `nbits` on is 0. -/
def tableWord (nbits w : Nat) : Word := BitVec.ofNat 32 (w % 2 ^ nbits)

/-- The instruction the decoder reads from the bytes of a table word, laid out as the hardware stores them. -/
def decodeTableWord (nbits w : Nat) : Option Instr :=
  match decode (leBytes (tableWord nbits w)) with
  | .instr (i, _) => some i
  | .illegal _ => none

end Sys2Proof
end

