-- ==== Sys2Proof/Config.lean ====
section
/-! DEFINITION. What a platform fixes for the hart (spec/00_scope.md R4, spec/92_eei_decisions.md "Open parameters
in one place"), and the free values: what the spec leaves to be any value. -/

namespace Sys2Proof

/-- What `MEMMAP` says stands behind a region (R30): plain memory, or a device outside the spec (R29). -/
inductive RegionKind where
  | main
  | device
  deriving DecidableEq, Repr

/-- One region of `MEMMAP` (R30): its first byte, its size in bytes, its kind, and its three permission bits. -/
structure Region where
  base : Nat
  size : Nat
  kind : RegionKind
  r : Bool
  w : Bool
  x : Bool
  deriving DecidableEq, Repr

/-- The parameter `MISALIGNED_WORD` (R25): what LW and SW do at an address that is not a multiple of 4. -/
inductive MisalignedWord where
  | bytewise
  | fault
  deriving DecidableEq, Repr

/-- The open parameters of R4 that stay fixed while the machine runs: `MEMMAP` (R30), `MISALIGNED_WORD` (R25),
`RESET_PC` (R110) and `HALT_PC` (R117, optional). DESIGN CHOICE (safe): the model carries them in a field of State
that no step changes, so that a statement about all states is a statement about all platforms (log entry 1). -/
structure Platform where
  memMap : List Region
  misalignedWord : MisalignedWord
  resetPc : Word
  haltPc : Option Word
  deriving DecidableEq, Repr

/-- One access that touched a byte of a `device` region: an instruction fetch, a load or a store, with its address,
its width in bytes and, for a store, the value stored (zero-extended). DESIGN CHOICE (safe): the model's own record (log
entry 5). -/
inductive DeviceAccess where
  | fetch (addr : Nat)
  | load (addr width : Nat)
  | store (addr width : Nat) (value : Word)
  deriving DecidableEq, Repr

/-- FREE VALUE (DEDUCED, safe, log entry 4): the byte a `main` address holds before anything was stored to it. R112 and
spec/93_implementation_defined.md U5 say any value; that it stays the same until a store is R33's "the initial content". -/
opaque Config.initialByte : Nat → Byte

/-- FREE VALUE (DESIGN CHOICE, unsafe where two runs are compared, log entry 5): the byte a `device` address answers to a
read, given every device access made before it. R29 and spec/93_implementation_defined.md U13 say any value. -/
opaque Config.deviceByte : List DeviceAccess → Nat → Byte

/-- The platform of `State.reset`. DESIGN CHOICE (unsafe, log entry 2): the spec leaves all four open (R4); one `main`
region over the whole address space with every permission, the setting of `MISALIGNED_WORD` that R25 recommends,
`RESET_PC` 0 and no `HALT_PC`. -/
def Config.resetPlatform : Platform where
  memMap := [{ base := 0, size := 4294967296, kind := .main, r := true, w := true, x := true }]
  misalignedWord := .fault
  resetPc := 0
  haltPc := none

end Sys2Proof
end

