-- ==== Sys2Proof/Machine/State.lean ====
section
/-! DEFINITION. The machine's state as plain data, the reasons a step can stop, and the state right after reset
(spec/10_state.md, spec/60_exceptions.md R90 and R99, spec/70_reset_and_hazards.md R110). -/

namespace Sys2Proof.Machine

/-- The seven synchronous exceptions, which the spec calls faults (R90). Taking one writes the fault record and is a NEXT
state (`State.raise`), not a stop. -/
inductive Cause where
  /-- code 0: the step, before fetch, when pc[1:0] is not 00 (R92) -/
  | instructionAddressMisaligned
  /-- code 1: fetch, when one of the four bytes is not fetchable (R93) -/
  | instructionAccessFault
  /-- code 2: decode, when the word is no instruction (R91) -/
  | illegalInstruction
  /-- code 4: LW at an address that is not a multiple of 4, when `MISALIGNED_WORD = fault` (R94) -/
  | loadAddressMisaligned
  /-- code 5: LW or LBU, when a byte is not readable (R95) -/
  | loadAccessFault
  /-- code 6: SW at an address that is not a multiple of 4, when `MISALIGNED_WORD = fault` (R96) -/
  | storeAddressMisaligned
  /-- code 7: SW or SB, when a byte is not writable (R97) -/
  | storeAccessFault
  deriving DecidableEq, Repr

/-- One recorded fault (R99): which one (its code and its name follow from the cause, `Cause.code` and `Cause.name`), the
pc of the faulting step, and the recorded value of R90's table. -/
structure FaultRecord where
  cause : Cause
  pc : Word
  value : Word
  deriving DecidableEq, Repr

/-- Memory: the bytes stored so far, as (address, byte) pairs with addresses strictly rising (`Memory.wf`). An address
that is not listed holds nothing stored; what a load of it answers is `State.byteAt`'s to say (R112). -/
abbrev Memory := List Host.Cell

/-- The whole architectural state (spec/10_state.md, first paragraph): x1 to x15, the pc, the memory and the fault record.
Beside it stand the platform's parameters, which no step changes (log entry 1), and the model's record of device accesses
(log entry 5). -/
structure State where
  /-- x1 to x15, at positions 0 to 14; x0 has no storage (R10, R11) -/
  regs : Vector Word 15
  /-- the address of the instruction being executed (R13) -/
  pc : Word
  /-- the bytes of `main` regions stored so far (R20, R21) -/
  mem : Memory
  /-- the fault record, empty or one fault (R99) -/
  fault : Option FaultRecord
  /-- `MEMMAP`, `MISALIGNED_WORD`, `RESET_PC`, `HALT_PC` (R4) -/
  platform : Platform
  /-- the accesses made so far to `device` bytes, newest first (R29; the model's own field) -/
  deviceLog : List DeviceAccess
  deriving DecidableEq, Repr

/-- Why the machine has no further step. -/
inductive Fault where
  /-- `step` answers this, and nothing else does, when a fault is already recorded: "from then on the hart has no step"
  (R99). Safe: the hardware may go on in some way, and the model says nothing of it (D5, log entry 6). -/
  | terminal (r : FaultRecord)
  deriving DecidableEq, Repr

/-- Why an instruction has no meaning. -/
inductive Refusal where
  /-- An arm of `exec` whose instruction has no meaning yet would answer this. Safe. No arm does: all eight instructions
  have their meaning. -/
  | notModelled (mnemonic : String)
  deriving DecidableEq, Repr

/-- The machine right after reset (R19, R110): the fault record empty, memory with nothing listed, the pc at `RESET_PC`.
DESIGN CHOICE (unsafe): the spec leaves the platform open (log entry 2) and gives x1 to x15 no value, which the model sets
to 0 (log entry 3). `State.resetWith` is the reset for every platform, every register content and every memory image. -/
def State.reset : State where
  regs := Vector.replicate 15 0
  pc := Config.resetPlatform.resetPc
  mem := []
  fault := none
  platform := Config.resetPlatform
  deviceLog := []

end Sys2Proof.Machine
end

