-- ==== Sys2Proof/Machine/Flags.lean ====
section
/-! DEFINITION. The hardware's one arithmetic operation and its flags: there are none (spec/10_state.md R16). -/

namespace Sys2Proof.Machine

/-- 32-bit addition (spec/40_integer_computational.md R63): the mathematical sum modulo 2^32, the carry out of bit 31
discarded. Nothing else results: no flag, no overflow indication, no exception (R16, R63). ADD, ADDI, every effective
address, the pc's advance and the link value use it. -/
def add32 (a b : Word) : Word := BitVec.ofNat 32 (a.toNat + b.toNat)

end Sys2Proof.Machine
end

