-- ==== Sys2Proof/Machine/Ops.lean ====
section
/-! DEFINITION. The named operations over memory, registers, the pc and the fault record: spec/10_state.md,
spec/20_memory.md, spec/60_exceptions.md R90 and R99, spec/70_reset_and_hazards.md R110 and R112. -/

namespace Sys2Proof.Machine

/-! ### Memory as data -/

/-- The byte stored at an address, if one was (R21: a partial map). -/
def Memory.read : Memory → Nat → Option Byte
  | [], _ => none
  | (k, v) :: m, a => if k = a then some v else Memory.read m a

/-- Memory with byte `v` stored at address `a`, kept in canonical form. -/
def Memory.write : Memory → Nat → Byte → Memory
  | [], a, v => [(a, v)]
  | (k, u) :: m, a, v =>
    if a < k then (a, v) :: (k, u) :: m
    else if a = k then (a, v) :: m
    else (k, u) :: Memory.write m a v

/-- The canonical form: addresses strictly rising and below 2^32 (R20). An unlisted address holds nothing stored, so no
entry can equal what an unlisted address holds. -/
def Memory.wf : Memory → Bool
  | [] => true
  | [(a, _)] => decide (a < 4294967296)
  | (a, _) :: (b, v) :: m => decide (a < b) && Memory.wf ((b, v) :: m)

/-- The memory that a loader leaves after placing the listed bytes (R112); of two bytes listed for one address the first
holds (DESIGN CHOICE, safe, log entry 16). An address is reduced to 32 bits (R20). -/
def Memory.ofImage : List Host.Cell → Memory
  | [] => []
  | (a, v) :: cells => Memory.write (Memory.ofImage cells) (a % 4294967296) v

/-! ### The address map -/

/-- The region holds byte address `a` (R30). -/
def Region.covers (r : Region) (a : Nat) : Bool := decide (r.base ≤ a) && decide (a < r.base + r.size)

/-- The region of `MEMMAP` that holds byte address `a`. The regions of a platform are disjoint (R30); where a list breaks
that, the first one decides (DESIGN CHOICE, safe, log entry 17). -/
def regionAt (p : Platform) (a : Word) : Option Region := p.memMap.find? (fun r => Region.covers r a.toNat)

/-- `readable(a)` of R30. -/
def readable (p : Platform) (a : Word) : Bool :=
  match regionAt p a with
  | some r => r.r
  | none => false

/-- `writable(a)` of R30. -/
def writable (p : Platform) (a : Word) : Bool :=
  match regionAt p a with
  | some r => r.w
  | none => false

/-- `fetchable(a)` of R30. -/
def fetchable (p : Platform) (a : Word) : Bool :=
  match regionAt p a with
  | some r => r.x
  | none => false

/-- Byte address `a` belongs to a `device` region (R29, R30). -/
def isDevice (p : Platform) (a : Word) : Bool :=
  match regionAt p a with
  | some r => decide (r.kind = .device)
  | none => false

/-- The four byte addresses of a word access, modulo 2^32 (R21, R22). -/
def wordAddrs (a : Word) : List Word := [a, add32 a 1, add32 a 2, add32 a 3]

/-- `addr[1:0] = 0b00`: the address is a multiple of 4 (R14, R22). -/
def aligned4 (a : Word) : Bool := decide (a.extractLsb' 0 2 = 0b00#2)

/-! ### Registers and the pc -/

/-- `x[i]` (R5): x0 reads as 0 (R11). -/
def State.readReg (s : State) (r : Reg) : Word :=
  if r = 0 then 0 else s.regs[r.val - 1]

/-- `x[i] <- v` (R5): no effect on any state when i = 0 (R11). -/
def State.writeReg (s : State) (r : Reg) (v : Word) : State :=
  if r = 0 then s else { s with regs := s.regs.set (r.val - 1) v }

/-- `pc <- t` (R5). -/
def State.setPc (s : State) (t : Word) : State := { s with pc := t }

/-- `pc <- pc + 4`, modulo 2^32 (R15). -/
def State.advance (s : State) : State := s.setPc (add32 s.pc 4)

/-- The end of an instruction with a result: `x[rd] <- v`, then `pc <- pc + 4`. -/
def State.retire (s : State) (rd : Reg) (v : Word) : State := (s.writeReg rd v).advance

/-! ### Taking an exception -/

/-- The code of a fault (R90). A label: no register holds it. -/
def Cause.code : Cause → Nat
  | .instructionAddressMisaligned => 0
  | .instructionAccessFault => 1
  | .illegalInstruction => 2
  | .loadAddressMisaligned => 4
  | .loadAccessFault => 5
  | .storeAddressMisaligned => 6
  | .storeAccessFault => 7

/-- The name of a fault (R90). -/
def Cause.name : Cause → String
  | .instructionAddressMisaligned => "InstructionAddressMisaligned"
  | .instructionAccessFault => "InstructionAccessFault"
  | .illegalInstruction => "IllegalInstruction"
  | .loadAddressMisaligned => "LoadAddressMisaligned"
  | .loadAccessFault => "LoadAccessFault"
  | .storeAddressMisaligned => "StoreAddressMisaligned"
  | .storeAccessFault => "StoreAccessFault"

/-- `raise E(info)` (R99): the fault record becomes (E, pc of the faulting step, info); registers, memory and pc keep their
values (R100). There is no handler, no saved register and no mode (R99), and no return from an exception (R101).
DEDUCED (safe): taking a fault is a next state, after which `step` stops (log entry 6). -/
def State.raise (s : State) (c : Cause) (info : Word) : State :=
  { s with fault := some { cause := c, pc := s.pc, value := info } }

/-! ### Bytes and device accesses -/

/-- The byte a read of address `a` answers. A `main` byte is the one last stored, or, if none was, any value, the same
until a store (R29, R33, R112; free value, safe, log entry 4). A `device` byte is any value (R29; free value, unsafe where
two runs are compared, log entry 5). -/
def State.byteAt (s : State) (a : Word) : Byte :=
  if isDevice s.platform a then Config.deviceByte s.deviceLog a.toNat
  else (s.mem.read a.toNat).getD (Config.initialByte a.toNat)

/-- The little-endian word at `a`, its four bytes read in one access (R22, R24). -/
def State.wordAt (s : State) (a : Word) : Word :=
  leWord (s.byteAt a) (s.byteAt (add32 a 1)) (s.byteAt (add32 a 2)) (s.byteAt (add32 a 3))

/-- An access to the byte addresses `as` has been made: it is recorded if one of them is a device's (R29, log entry 5). -/
def State.noteDevice (s : State) (e : DeviceAccess) (as : List Word) : State :=
  if as.any (isDevice s.platform) then { s with deviceLog := e :: s.deviceLog } else s

/-- `mem[a] <- b` (R23) for a `main` byte; what a write to a `device` byte does is the platform's (R29), and `mem` does not
hold it (DESIGN CHOICE, safe, log entry 5). -/
def State.putByte (s : State) (a : Word) (b : Byte) : State :=
  if isDevice s.platform a then s else { s with mem := s.mem.write a.toNat b }

/-- One indivisible load access of one byte (R28). -/
def State.loadByteAccess (s : State) (a : Word) : Byte × State :=
  (s.byteAt a, s.noteDevice (.load a.toNat 1) [a])

/-- The load of a word: one access at a multiple of 4, otherwise four byte accesses in ascending address order (R28). -/
def State.loadWordAccess (s : State) (a : Word) : Word × State :=
  if aligned4 a then (s.wordAt a, s.noteDevice (.load a.toNat 4) (wordAddrs a))
  else
    let r0 := s.loadByteAccess a
    let r1 := r0.2.loadByteAccess (add32 a 1)
    let r2 := r1.2.loadByteAccess (add32 a 2)
    let r3 := r2.2.loadByteAccess (add32 a 3)
    (leWord r0.1 r1.1 r2.1 r3.1, r3.2)

/-- One indivisible store access of one byte (R28). -/
def State.storeByteAccess (s : State) (a : Word) (b : Byte) : State :=
  (s.putByte a b).noteDevice (.store a.toNat 1 (b.setWidth 32)) [a]

/-- The four bytes of a word into memory, the least significant at the lowest address (R23, R24). -/
def State.putWord (s : State) (a v : Word) : State :=
  (((s.putByte a (byteOf v 0)).putByte (add32 a 1) (byteOf v 1)).putByte (add32 a 2) (byteOf v 2)).putByte
    (add32 a 3) (byteOf v 3)

/-- The store of a word: one access at a multiple of 4, otherwise four byte accesses in ascending address order (R28). -/
def State.storeWordAccess (s : State) (a v : Word) : State :=
  if aligned4 a then (s.putWord a v).noteDevice (.store a.toNat 4 v) (wordAddrs a)
  else
    (((s.storeByteAccess a (byteOf v 0)).storeByteAccess (add32 a 1) (byteOf v 1)).storeByteAccess
      (add32 a 2) (byteOf v 2)).storeByteAccess (add32 a 3) (byteOf v 3)

/-! ### MemRead, MemWrite and Fetch, with their checks -/

/-- What an access with checks answers: the first fault that applies, or its result. -/
inductive Checked (α : Type) where
  | raises (c : Cause)
  | ok (r : α)
  deriving DecidableEq, Repr

/-- The word access at `a` is refused for its alignment: `addr[1:0]` is not 00 and `MISALIGNED_WORD = fault` (R25). -/
def misalignmentFaults (p : Platform) (a : Word) : Bool :=
  !aligned4 a && decide (p.misalignedWord = .fault)

/-- `MemRead(addr, 1)` (R22). -/
def State.memReadByte (s : State) (a : Word) : Checked (Byte × State) :=
  if readable s.platform a then .ok (s.loadByteAccess a) else .raises .loadAccessFault

/-- `MemRead(addr, 4)` (R22): misalignment first, then the permission of every byte (R75, R98). -/
def State.memReadWord (s : State) (a : Word) : Checked (Word × State) :=
  if misalignmentFaults s.platform a then .raises .loadAddressMisaligned
  else if (wordAddrs a).all (readable s.platform) then .ok (s.loadWordAccess a)
  else .raises .loadAccessFault

/-- `MemWrite(addr, 1, v)` (R23). -/
def State.memWriteByte (s : State) (a : Word) (b : Byte) : Checked State :=
  if writable s.platform a then .ok (s.storeByteAccess a b) else .raises .storeAccessFault

/-- `MemWrite(addr, 4, v)` (R23): all checks are made before any byte is written. -/
def State.memWriteWord (s : State) (a v : Word) : Checked State :=
  if misalignmentFaults s.platform a then .raises .storeAddressMisaligned
  else if (wordAddrs a).all (writable s.platform) then .ok (s.storeWordAccess a v)
  else .raises .storeAccessFault

/-- The step's alignment check of the pc (R14, R92), then `Fetch(pc)` (R26). -/
def State.fetch (s : State) : Checked (Word × State) :=
  if aligned4 s.pc then
    if (wordAddrs s.pc).all (fetchable s.platform) then
      .ok (s.wordAt s.pc, s.noteDevice (.fetch s.pc.toNat) (wordAddrs s.pc))
    else .raises .instructionAccessFault
  else .raises .instructionAddressMisaligned

/-! ### Reset -/

/-- Reset (R19, R110) on a platform: `pc <- RESET_PC`, the fault record emptied, x1 to x15 the given unspecified values, and
memory the image the platform loaded (R112). -/
def State.resetWith (p : Platform) (regs : Vector Word 15) (image : List Host.Cell) : State where
  regs := regs
  pc := p.resetPc
  mem := Memory.ofImage image
  fault := none
  platform := p
  deviceLog := []

/-- The word of four bytes stored at `a`, as a loader places it (R112): memory alone changes. -/
def State.placeWord (s : State) (a w : Word) : State :=
  { s with
    mem := (((s.mem.write a.toNat (byteOf w 0)).write (add32 a 1).toNat (byteOf w 1)).write
      (add32 a 2).toNat (byteOf w 2)).write (add32 a 3).toNat (byteOf w 3) }

end Sys2Proof.Machine
end

