-- ==== Sys2Proof/Machine/Operands.lean ====
section
/-! DEFINITION. Every operand form of the eight instructions: a register (`State.readReg`), a sign-extended immediate,
LUI's upper immediate, and the one addressing mode (spec/30_encoding.md R46 to R48, spec/41_load_store.md R70). -/

namespace Sys2Proof.Machine

/-- `sext_32(imm)` of a 12-bit signed immediate (R6, R46, R47): its two's-complement pattern in 32 bits. -/
def sext32 (imm : Int) : Word := BitVec.ofInt 32 imm

/-- LUI's operand in bits 31:12, twelve zero bits below (R48). -/
def upperImm (imm : Nat) : Word := BitVec.ofNat 20 imm ++ 0#12

/-- `x[rs1] + sext_32(imm)`, modulo 2^32: the address of LW, LBU, SW, SB (R70) and the sum JALR jumps by (R80). -/
def State.effectiveAddress (s : State) (rs1 : Reg) (imm : Int) : Word := add32 (s.readReg rs1) (sext32 imm)

/-- `temp & 0xFFFFFFFE`: bit 0 cleared, bits 31:1 kept (spec/42_jump.md R80). -/
def clearBit0 (t : Word) : Word := t &&& 0xFFFFFFFE

end Sys2Proof.Machine
end

