-- ==== Sys2Proof/Machine/Integer.lean ====
section
/-! DEFINITION. ADD, ADDI, LUI (spec/40_integer_computational.md). None raises an exception at execution. -/

namespace Sys2Proof.Machine

/-- ADD (R60): `x[rd] <- x[rs1] + x[rs2]`, `pc <- pc + 4`. -/
def execAdd (rd rs1 rs2 : Reg) (s : State) : Host.Outcome State Fault Refusal :=
  .next (s.retire rd (add32 (s.readReg rs1) (s.readReg rs2)))

/-- ADDI (R61): `x[rd] <- x[rs1] + sext_32(imm)`, `pc <- pc + 4`. -/
def execAddi (rd rs1 : Reg) (imm : Int) (s : State) : Host.Outcome State Fault Refusal :=
  .next (s.retire rd (add32 (s.readReg rs1) (sext32 imm)))

/-- LUI (R62): `x[rd] <- imm ++ 0^12`, `pc <- pc + 4`; no register is read. -/
def execLui (rd : Reg) (imm : Nat) (s : State) : Host.Outcome State Fault Refusal :=
  .next (s.retire rd (upperImm imm))

end Sys2Proof.Machine
end

