-- ==== Sys2Proof/Machine/Jump.lean ====
section
/-! DEFINITION. JALR (spec/42_jump.md), the only control transfer. -/

namespace Sys2Proof.Machine

/-- JALR (R80): the target is computed before rd is written; rd receives `pc + 4`; the pc becomes the target with bit 0
cleared. It raises nothing: a target with bit 1 set is the next step's fault (R82; D6, UNVERIFIED, safe, log entry 8). -/
def execJalr (rd rs1 : Reg) (imm : Int) (s : State) : Host.Outcome State Fault Refusal :=
  .next ((s.writeReg rd (add32 s.pc 4)).setPc (clearBit0 (s.effectiveAddress rs1 imm)))

end Sys2Proof.Machine
end

