-- ==== Sys2Proof/Machine/LoadStore.lean ====
section
/-! DEFINITION. LW, LBU, SW, SB (spec/41_load_store.md), in the order of events of R75. A check that fails takes its
exception with the effective address as the recorded value (R94 to R97). -/

namespace Sys2Proof.Machine

/-- LW (R71): the word at the effective address into rd, or LoadAddressMisaligned or LoadAccessFault. With rd = x0 the read
is still made (R11). -/
def execLw (rd rs1 : Reg) (imm : Int) (s : State) : Host.Outcome State Fault Refusal :=
  match s.memReadWord (s.effectiveAddress rs1 imm) with
  | .raises c => .next (s.raise c (s.effectiveAddress rs1 imm))
  | .ok (v, t) => .next (t.retire rd v)

/-- LBU (R72): the byte at the effective address, zero-extended, into rd, or LoadAccessFault. -/
def execLbu (rd rs1 : Reg) (imm : Int) (s : State) : Host.Outcome State Fault Refusal :=
  match s.memReadByte (s.effectiveAddress rs1 imm) with
  | .raises c => .next (s.raise c (s.effectiveAddress rs1 imm))
  | .ok (b, t) => .next (t.retire rd (b.setWidth 32))

/-- SW (R73): x[rs2] to the four bytes at the effective address, or StoreAddressMisaligned or StoreAccessFault. -/
def execSw (rs2 rs1 : Reg) (imm : Int) (s : State) : Host.Outcome State Fault Refusal :=
  match s.memWriteWord (s.effectiveAddress rs1 imm) (s.readReg rs2) with
  | .raises c => .next (s.raise c (s.effectiveAddress rs1 imm))
  | .ok t => .next t.advance

/-- SB (R74): bits 7:0 of x[rs2] to the byte at the effective address and to no other (D18, UNVERIFIED, unsafe, log entry 12), or
StoreAccessFault. -/
def execSb (rs2 rs1 : Reg) (imm : Int) (s : State) : Host.Outcome State Fault Refusal :=
  match s.memWriteByte (s.effectiveAddress rs1 imm) (byteOf (s.readReg rs2) 0) with
  | .raises c => .next (s.raise c (s.effectiveAddress rs1 imm))
  | .ok t => .next t.advance

end Sys2Proof.Machine
end

