-- ==== Sys2Proof/Machine/Step.lean ====
section
/-! DEFINITION. One step of the hart (spec/10_state.md R14). -/

namespace Sys2Proof.Machine

/-- The step of R14: no step when a fault is recorded (R99); the pc's alignment check and the fetch; decoding; execution.
Each step executes exactly one instruction or records exactly one fault. Every check's fault is recorded with the value of
R90's table: the pc for the two fetch faults, the word for an illegal instruction. -/
def step (s : State) : Host.Outcome State Fault Refusal :=
  match s.fault with
  | some r => .fault (.terminal r)
  | none =>
    match s.fetch with
    | .raises c => .next (s.raise c s.pc)
    | .ok (w, t) =>
      match decodeWord w with
      | .illegal _ => .next (t.raise .illegalInstruction w)
      | .instr i => exec i t

/-- The machine with the table's word stored at the pc, where `step` fetches its next instruction: what the platform's
loader does (R112; DESIGN CHOICE, safe, log entry 16). -/
def State.withFetchWord (s : State) (nbits w : Nat) : State := s.placeWord s.pc (tableWord nbits w)

end Sys2Proof.Machine
end

