-- ==== Sys2Proof/Safety.lean ====
section
/-! DEFINITION. The terms that claims are stated in: the platform's own constraints, when a data access is granted, when a
run has ended, and the invariant every step keeps. -/

namespace Sys2Proof.Safety

open Sys2Proof.Machine

/-- No byte address lies in both regions (R30: disjoint). -/
def disjoint (r q : Region) : Bool := decide (r.base + r.size ≤ q.base) || decide (q.base + q.size ≤ r.base)

/-- Every two regions of the list are disjoint and none passes the top of the address space (spec/92_eei_decisions.md,
"Open parameters in one place"). -/
def memMapOk : List Region → Bool
  | [] => true
  | r :: rs => decide (r.base + r.size ≤ 4294967296) && rs.all (disjoint r) && memMapOk rs

/-- `HALT_PC`, where there is one, is a multiple of 4. -/
def haltOk : Option Word → Bool
  | some h => aligned4 h
  | none => true

/-- The constraints the spec puts on the open parameters (R30, R110; D10, D13, D15): the regions are disjoint, `RESET_PC` is
a multiple of 4 and its four bytes are fetchable, `HALT_PC` is a multiple of 4. -/
def platformOk (p : Platform) : Bool :=
  memMapOk p.memMap && aligned4 p.resetPc && (wordAddrs p.resetPc).all (fetchable p) && haltOk p.haltPc

/-- A load of one byte at `a` is granted (R22). -/
def loadByteOk (p : Platform) (a : Word) : Bool := readable p a

/-- A load of a word at `a` is granted: its alignment is accepted and every byte is readable (R22, R25). -/
def loadWordOk (p : Platform) (a : Word) : Bool :=
  (aligned4 a || decide (p.misalignedWord = .bytewise)) && (wordAddrs a).all (readable p)

/-- A store of one byte at `a` is granted (R23). -/
def storeByteOk (p : Platform) (a : Word) : Bool := writable p a

/-- A store of a word at `a` is granted: its alignment is accepted and every byte is writable (R23, R25). -/
def storeWordOk (p : Platform) (a : Word) : Bool :=
  (aligned4 a || decide (p.misalignedWord = .bytewise)) && (wordAddrs a).all (writable p)

/-- None of the four bytes of the word at `a` belongs to a device. -/
def plainWord (p : Platform) (a : Word) : Bool := (wordAddrs a).all (fun b => !isDevice p b)

/-- A run has ended normally: the hart is about to execute the instruction at `HALT_PC`, with no fault recorded (R117). The
step does not stop there: the ISA has no halt (DEDUCED, safe, log entry 14). -/
def runEnded (s : State) : Bool := decide (s.fault = none) && decide (s.platform.haltPc = some s.pc)

/-- The hart has a step: no fault is recorded (R99, R109). -/
def running (s : State) : Bool := decide (s.fault = none)

/-- Registers, pc, memory and platform are as before (R100). -/
abbrev sameMachine (s t : State) : Prop :=
  (∀ r, t.readReg r = s.readReg r) ∧ t.pc = s.pc ∧ t.mem = s.mem ∧ t.platform = s.platform

/-- Fault `c` has been taken with the recorded value `info` (R99), and nothing else has changed (R100). -/
abbrev takesFault (c : Cause) (info : Word) (s t : State) : Prop :=
  t.fault = some { cause := c, pc := s.pc, value := info } ∧ sameMachine s t ∧ t.deviceLog = s.deviceLog

/-- Byte `k` of a word access at `a`, modulo 2^32 (R21, R22). -/
abbrev byteAddr (a : Word) (k : Fin 4) : Word := a + BitVec.ofNat 32 k.val

/-- The device accesses among the first `n` byte accesses of a word at `a`, which go in ascending address order, newest first
as the record keeps them; `byte k` is the access of byte `k` (R28, log entry 5). -/
def byteEvents (p : Platform) (a : Word) (byte : Fin 4 → DeviceAccess) (n : Nat) : List DeviceAccess :=
  (([3, 2, 1, 0] : List (Fin 4)).filter (fun k => decide (k.val < n) && isDevice p (byteAddr a k))).map byte

/-- What the record of device accesses gains by the access of a word at `a`, newest first (R28, log entry 5): at a multiple of
4 the one access `whole`, if any of the four bytes is a device's; otherwise the byte accesses of its device bytes. -/
def wordEvents (p : Platform) (a : Word) (whole : DeviceAccess) (byte : Fin 4 → DeviceAccess) : List DeviceAccess :=
  if aligned4 a then if plainWord p a then [] else [whole] else byteEvents p a byte 4

/-- The state after the fetch of a step: the fetch of a word that touches a device byte is recorded (log entry 5). -/
abbrev afterFetch (s : State) : State := s.noteDevice (.fetch s.pc.toNat) (wordAddrs s.pc)

/-- The pc is a multiple of 4 and its four bytes are fetchable (R14, R26). -/
def fetchOk (s : State) : Bool := aligned4 s.pc && (wordAddrs s.pc).all (fetchable s.platform)

/-- Register `rd` holds `v`, unless rd is x0 (R11); every other register is as before. -/
abbrev writesReg (rd : Reg) (v : Word) (s t : State) : Prop :=
  ∀ r, t.readReg r = if r = rd ∧ rd ≠ 0 then v else s.readReg r

/-- Everything that is no register and not the pc is as before: memory, the fault record, the platform and the record of
device accesses. -/
abbrev keepsRest (s t : State) : Prop :=
  t.mem = s.mem ∧ t.fault = s.fault ∧ t.platform = s.platform ∧ t.deviceLog = s.deviceLog

/-- The byte a `main` address holds: the one last stored, or the initial content (R29, R33). -/
def storedByte (s : State) (a : Word) : Byte := (s.mem.read a.toNat).getD (Config.initialByte a.toNat)

/-- The state after a next state is passed through `f`; a stop stays a stop. -/
def mapNext (f : State → State) : Host.Outcome State Fault Refusal → Host.Outcome State Fault Refusal
  | .next s => .next (f s)
  | .fault r => .fault r
  | .refused r => .refused r

/-- The same machine with the other setting of `MISALIGNED_WORD` (R25). -/
def withMisaligned (m : MisalignedWord) (s : State) : State :=
  { s with platform := { s.platform with misalignedWord := m } }

/-- The registers an instruction reads (spec/10_state.md section 1, the read and write table). -/
def sources : Instr → List Reg
  | .add _ rs1 rs2 => [rs1, rs2]
  | .addi _ rs1 _ => [rs1]
  | .lui _ _ => []
  | .lw _ rs1 _ => [rs1]
  | .lbu _ rs1 _ => [rs1]
  | .sw rs2 rs1 _ => [rs1, rs2]
  | .sb rs2 rs1 _ => [rs1, rs2]
  | .jalr _ rs1 _ => [rs1]

/-- The register an instruction writes (spec/10_state.md section 1, the read and write table). -/
def dest : Instr → Option Reg
  | .add rd _ _ => some rd
  | .addi rd _ _ => some rd
  | .lui rd _ => some rd
  | .lw rd _ _ => some rd
  | .lbu rd _ _ => some rd
  | .sw _ _ _ => none
  | .sb _ _ _ => none
  | .jalr rd _ _ => some rd

/-- The same instruction with x0 as its destination (R11). -/
def withDestX0 : Instr → Instr
  | .add _ rs1 rs2 => .add 0 rs1 rs2
  | .addi _ rs1 imm => .addi 0 rs1 imm
  | .lui _ imm => .lui 0 imm
  | .lw _ rs1 imm => .lw 0 rs1 imm
  | .lbu _ rs1 imm => .lbu 0 rs1 imm
  | .sw rs2 rs1 imm => .sw rs2 rs1 imm
  | .sb rs2 rs1 imm => .sb rs2 rs1 imm
  | .jalr _ rs1 imm => .jalr 0 rs1 imm

/-- The instruction makes no word access at an address that is not a multiple of 4 (R25). -/
def wordAccessAligned (s : State) : Instr → Bool
  | .lw _ rs1 imm => aligned4 (s.effectiveAddress rs1 imm)
  | .sw _ rs1 imm => aligned4 (s.effectiveAddress rs1 imm)
  | _ => true

/-- The decoder rejects the word (R52). -/
def illegalWord (w : Word) : Bool :=
  match decodeWord w with
  | .instr _ => false
  | .illegal _ => true

/-- The fault that a step from `s` has recorded is one that R90's table lets that step raise: raised by what the table says,
under the table's condition, with the table's recorded value. -/
def raisedAsListed (s : State) (r : FaultRecord) : Prop :=
  match r.cause with
  | .instructionAddressMisaligned => aligned4 s.pc = false ∧ r.value = s.pc
  | .instructionAccessFault =>
    aligned4 s.pc = true ∧ (∃ k, fetchable s.platform (byteAddr s.pc k) = false) ∧ r.value = s.pc
  | .illegalInstruction => fetchOk s = true ∧ illegalWord (s.wordAt s.pc) = true ∧ r.value = s.wordAt s.pc
  | .loadAddressMisaligned =>
    ∃ rd rs1 imm, decodeWord (s.wordAt s.pc) = .instr (.lw rd rs1 imm) ∧ r.value = s.effectiveAddress rs1 imm ∧
      aligned4 r.value = false ∧ s.platform.misalignedWord = .fault
  | .loadAccessFault =>
    (∃ rd rs1 imm, decodeWord (s.wordAt s.pc) = .instr (.lw rd rs1 imm) ∧ r.value = s.effectiveAddress rs1 imm ∧
      ∃ k, readable s.platform (byteAddr r.value k) = false) ∨
    (∃ rd rs1 imm, decodeWord (s.wordAt s.pc) = .instr (.lbu rd rs1 imm) ∧ r.value = s.effectiveAddress rs1 imm ∧
      readable s.platform r.value = false)
  | .storeAddressMisaligned =>
    ∃ rs2 rs1 imm, decodeWord (s.wordAt s.pc) = .instr (.sw rs2 rs1 imm) ∧ r.value = s.effectiveAddress rs1 imm ∧
      aligned4 r.value = false ∧ s.platform.misalignedWord = .fault
  | .storeAccessFault =>
    (∃ rs2 rs1 imm, decodeWord (s.wordAt s.pc) = .instr (.sw rs2 rs1 imm) ∧ r.value = s.effectiveAddress rs1 imm ∧
      ∃ k, writable s.platform (byteAddr r.value k) = false) ∨
    (∃ rs2 rs1 imm, decodeWord (s.wordAt s.pc) = .instr (.sb rs2 rs1 imm) ∧ r.value = s.effectiveAddress rs1 imm ∧
      writable s.platform r.value = false)

/-- A recorded fault agrees with its machine: its pc is the machine's; the value of a fetch fault is that pc (R92, R93);
only a misaligned pc is recorded as misaligned (R92); a misaligned data access has a value that is no multiple of 4, under
`MISALIGNED_WORD = fault` (R94, R96). -/
def recordOk (s : State) : Bool :=
  match s.fault with
  | none => true
  | some r =>
    decide (r.pc = s.pc) &&
      (match r.cause with
       | .instructionAddressMisaligned => decide (r.value = s.pc) && !aligned4 s.pc
       | .instructionAccessFault => decide (r.value = s.pc) && aligned4 s.pc
       | .illegalInstruction => illegalWord r.value && aligned4 s.pc
       | .loadAddressMisaligned => misalignmentFaults s.platform r.value && aligned4 s.pc
       | .storeAddressMisaligned => misalignmentFaults s.platform r.value && aligned4 s.pc
       | .loadAccessFault => aligned4 s.pc
       | .storeAccessFault => aligned4 s.pc)

/-- The invariant of the machine: memory is in canonical form; bit 0 of the pc is 0 (R92: "pc[0] can never be 1 after
reset"); a recorded fault agrees with its machine. -/
abbrev Inv (s : State) : Prop :=
  s.mem.wf = true ∧ s.pc.getLsbD 0 = false ∧ recordOk s = true

end Sys2Proof.Safety
end

