-- ==== Sys2Proof/Certificates/Slice0/Obligations.lean ====
section
/-! DEFINITION. What is claimed of the model, for the provers. A rule of spec/ that carries the spec's own mark
`[decision: see 92_eei_decisions.md D<n>]` is the spec's choice where its source is silent; a docstring names the decision
a statement rests on. Free values (log entries 4 and 5) are never fixed: every statement holds whatever they are. -/

open Sys2Proof Sys2Proof.Machine Sys2Proof.Safety

/-! ### The eight instructions: word, completion, result, frame, faults -/

/-- R60, whole. The word of ADD in its pattern decodes to it; a word of ADD's opcode, funct3 and funct7 that names x16 to x31 is
illegal; executed, ADD completes in every state: x[rd] becomes the sum modulo 2^32 of the old x[rs1] and x[rs2] (nothing is
written for rd = x0), the pc advances by 4, nothing else changes and nothing is raised. -/
def Obligations.AddWritesSum : Prop :=
  (∀ w : Word, w &&& 0xFE00707F = 0x00000033 → (w.getLsbD 24 || w.getLsbD 19 || w.getLsbD 11) = true →
    illegalWord w = true) ∧
  ∀ rd rs1 rs2 : Reg,
    decodeWord (0b0000000#7 ++ regBits rs2 ++ regBits rs1 ++ 0b000#3 ++ regBits rd ++ 0b0110011#7) =
      .instr (.add rd rs1 rs2) ∧
    ∀ s : State, ∃ t, exec (.add rd rs1 rs2) s = .next t ∧ writesReg rd (s.readReg rs1 + s.readReg rs2) s t ∧
      t.pc = s.pc + 4 ∧ keepsRest s t

/-- R61, whole. As R60's, with the sign-extended 12-bit immediate as the second summand. -/
def Obligations.AddiWritesSum : Prop :=
  (∀ w : Word, w &&& 0x0000707F = 0x00000013 → (w.getLsbD 19 || w.getLsbD 11) = true → illegalWord w = true) ∧
  ∀ (rd rs1 : Reg) (imm : Int), -2048 ≤ imm → imm ≤ 2047 →
    decodeWord (BitVec.ofInt 12 imm ++ regBits rs1 ++ 0b000#3 ++ regBits rd ++ 0b0010011#7) = .instr (.addi rd rs1 imm) ∧
    ∀ s : State, ∃ t, exec (.addi rd rs1 imm) s = .next t ∧
      writesReg rd (s.readReg rs1 + (BitVec.ofInt 12 imm).signExtend 32) s t ∧ t.pc = s.pc + 4 ∧ keepsRest s t

/-- R62, whole. LUI writes its 20-bit operand times 4096: the operand in bits 31:12, zeros below. -/
def Obligations.LuiWritesUpper : Prop :=
  (∀ w : Word, w &&& 0x0000007F = 0x00000037 → w.getLsbD 11 = true → illegalWord w = true) ∧
  ∀ (rd : Reg) (imm : Nat), imm ≤ 0xFFFFF →
    decodeWord (BitVec.ofNat 20 imm ++ regBits rd ++ 0b0110111#7) = .instr (.lui rd imm) ∧
    ∀ s : State, ∃ t, exec (.lui rd imm) s = .next t ∧ writesReg rd (BitVec.ofNat 32 (imm * 4096)) s t ∧
      t.pc = s.pc + 4 ∧ keepsRest s t

/-- R71, whole. LW from a granted address completes: rd receives the four bytes at addr to addr+3 (modulo 2^32), the lowest in
bits 7:0; a byte of a `main` region is the one memory holds (R29). Nothing else changes. Otherwise it takes
LoadAddressMisaligned or LoadAccessFault with addr as the recorded value, and neither rd nor the pc changes. The byte order
is the spec's decision D1, the faults D2 and D10; the value of a device byte is left free (log entry 5). -/
def Obligations.LwLoadsWord : Prop :=
  (∀ w : Word, w &&& 0x0000707F = 0x00002003 → (w.getLsbD 19 || w.getLsbD 11) = true → illegalWord w = true) ∧
  ∀ (rd rs1 : Reg) (imm : Int), -2048 ≤ imm → imm ≤ 2047 →
    decodeWord (BitVec.ofInt 12 imm ++ regBits rs1 ++ 0b010#3 ++ regBits rd ++ 0b0000011#7) = .instr (.lw rd rs1 imm) ∧
    ∀ (s : State) (a : Word), a = s.readReg rs1 + (BitVec.ofInt 12 imm).signExtend 32 →
      (loadWordOk s.platform a = true →
        ∃ v t, exec (.lw rd rs1 imm) s = .next t ∧ writesReg rd v s t ∧ t.pc = s.pc + 4 ∧ t.mem = s.mem ∧
          t.fault = s.fault ∧ t.platform = s.platform ∧
          (∀ k : Fin 4, isDevice s.platform (byteAddr a k) = false → byteOf v k = storedByte s (byteAddr a k)) ∧
          (plainWord s.platform a = true → t.deviceLog = s.deviceLog)) ∧
      (aligned4 a = false → s.platform.misalignedWord = .fault →
        ∃ t, exec (.lw rd rs1 imm) s = .next t ∧ takesFault .loadAddressMisaligned a s t) ∧
      ((aligned4 a = true ∨ s.platform.misalignedWord = .bytewise) →
        (∃ k : Fin 4, readable s.platform (byteAddr a k) = false) →
        ∃ t, exec (.lw rd rs1 imm) s = .next t ∧ takesFault .loadAccessFault a s t)

/-- R72, whole. LBU from a readable address, aligned or not, completes: rd receives the byte zero-extended. Otherwise it takes
LoadAccessFault; it never takes a misalignment fault. The fault is the spec's decision D10; the value of a device byte is
left free (log entry 5). -/
def Obligations.LbuLoadsByte : Prop :=
  (∀ w : Word, w &&& 0x0000707F = 0x00004003 → (w.getLsbD 19 || w.getLsbD 11) = true → illegalWord w = true) ∧
  ∀ (rd rs1 : Reg) (imm : Int), -2048 ≤ imm → imm ≤ 2047 →
    decodeWord (BitVec.ofInt 12 imm ++ regBits rs1 ++ 0b100#3 ++ regBits rd ++ 0b0000011#7) = .instr (.lbu rd rs1 imm) ∧
    ∀ (s : State) (a : Word), a = s.readReg rs1 + (BitVec.ofInt 12 imm).signExtend 32 →
      (readable s.platform a = true →
        ∃ (b : Byte) (t : State), exec (.lbu rd rs1 imm) s = .next t ∧ writesReg rd (b.setWidth 32) s t ∧
          t.pc = s.pc + 4 ∧ t.mem = s.mem ∧ t.fault = s.fault ∧ t.platform = s.platform ∧
          (isDevice s.platform a = false → b = storedByte s a ∧ t.deviceLog = s.deviceLog)) ∧
      (readable s.platform a = false →
        ∃ t, exec (.lbu rd rs1 imm) s = .next t ∧ takesFault .loadAccessFault a s t)

/-- SW's section (R73) and section 2 of 20_memory.md, with one clause of the model's own. SW to a granted address completes: the four bytes at addr to addr+3 (modulo 2^32) become x[rs2], bits 7:0 at
addr, and every other byte of memory, every register and the fault record stay. That a byte of a device region is not held
in memory, so that memory stays there, is the MODEL's choice (log entry 5): R73 does not say it. That a later fetch sees the
stored word is `StoredWordIsFetched`. Otherwise it takes StoreAddressMisaligned or StoreAccessFault and no byte is written. The byte order
is the spec's decision D1, the faults D2 and D10. -/
def Obligations.SwStoresWord : Prop :=
  (∀ w : Word, w &&& 0x0000707F = 0x00002023 → (w.getLsbD 24 || w.getLsbD 19) = true → illegalWord w = true) ∧
  ∀ (rs2 rs1 : Reg) (imm : Int), -2048 ≤ imm → imm ≤ 2047 →
    decodeWord ((BitVec.ofInt 12 imm).extractLsb' 5 7 ++ regBits rs2 ++ regBits rs1 ++ 0b010#3 ++
      (BitVec.ofInt 12 imm).extractLsb' 0 5 ++ 0b0100011#7) = .instr (.sw rs2 rs1 imm) ∧
    ∀ (s : State) (a : Word), a = s.effectiveAddress rs1 imm →
      a = s.readReg rs1 + (BitVec.ofInt 12 imm).signExtend 32 ∧
      (storeWordOk s.platform a = true →
        ∃ t, exec (.sw rs2 rs1 imm) s = .next t ∧ (∀ r, t.readReg r = s.readReg r) ∧ t.pc = s.pc + 4 ∧
          t.fault = s.fault ∧ t.platform = s.platform ∧
          (∀ k : Fin 4, isDevice s.platform (byteAddr a k) = false →
            t.mem.read (byteAddr a k).toNat = some (byteOf (s.readReg rs2) k)) ∧
          (∀ k : Fin 4, isDevice s.platform (byteAddr a k) = true →
            t.mem.read (byteAddr a k).toNat = s.mem.read (byteAddr a k).toNat) ∧
          (∀ b : Nat, (∀ k : Fin 4, b ≠ (byteAddr a k).toNat) → t.mem.read b = s.mem.read b) ∧
          (plainWord s.platform a = true → t.deviceLog = s.deviceLog)) ∧
      (aligned4 a = false → s.platform.misalignedWord = .fault →
        ∃ t, exec (.sw rs2 rs1 imm) s = .next t ∧ takesFault .storeAddressMisaligned a s t) ∧
      ((aligned4 a = true ∨ s.platform.misalignedWord = .bytewise) →
        (∃ k : Fin 4, writable s.platform (byteAddr a k) = false) →
        ∃ t, exec (.sw rs2 rs1 imm) s = .next t ∧ takesFault .storeAccessFault a s t)

/-- SB's section and the spec's decision D18 (which settles R74's hedge): SB to a writable address, aligned or not, completes:
exactly the byte at addr becomes bits 7:0 of x[rs2], and every other byte, every register and the fault record stay. A
device byte is not held in memory (log entry 5). Otherwise StoreAccessFault (D10), and no byte is written. -/
def Obligations.SbStoresByte : Prop :=
  (∀ w : Word, w &&& 0x0000707F = 0x00000023 → (w.getLsbD 24 || w.getLsbD 19) = true → illegalWord w = true) ∧
  ∀ (rs2 rs1 : Reg) (imm : Int), -2048 ≤ imm → imm ≤ 2047 →
    decodeWord ((BitVec.ofInt 12 imm).extractLsb' 5 7 ++ regBits rs2 ++ regBits rs1 ++ 0b000#3 ++
      (BitVec.ofInt 12 imm).extractLsb' 0 5 ++ 0b0100011#7) = .instr (.sb rs2 rs1 imm) ∧
    ∀ (s : State) (a : Word), a = s.effectiveAddress rs1 imm →
      a = s.readReg rs1 + (BitVec.ofInt 12 imm).signExtend 32 ∧
      (writable s.platform a = true →
        ∃ t, exec (.sb rs2 rs1 imm) s = .next t ∧ (∀ r, t.readReg r = s.readReg r) ∧ t.pc = s.pc + 4 ∧
          t.fault = s.fault ∧ t.platform = s.platform ∧
          (isDevice s.platform a = false →
            t.mem.read a.toNat = some ((s.readReg rs2).extractLsb' 0 8) ∧ t.deviceLog = s.deviceLog) ∧
          (isDevice s.platform a = true → t.mem = s.mem) ∧
          (∀ b : Nat, b ≠ a.toNat → t.mem.read b = s.mem.read b)) ∧
      (writable s.platform a = false →
        ∃ t, exec (.sb rs2 rs1 imm) s = .next t ∧ takesFault .storeAccessFault a s t)

/-- R80, whole. JALR completes in every state: the target is computed from the old x[rs1], rd receives pc + 4 (modulo 2^32;
nothing is written for rd = x0), the pc becomes the target with bit 0 cleared, nothing else changes and nothing is raised;
if the new pc has bit 1 set, the next step raises InstructionAddressMisaligned with that pc (the spec's decision D6). -/
def Obligations.JalrJumpsAndLinks : Prop :=
  (∀ w : Word, w &&& 0x0000007F = 0x00000067 →
    (w.extractLsb' 12 3 ≠ 0b000#3 ∨ (w.getLsbD 19 || w.getLsbD 11) = true) → illegalWord w = true) ∧
  ∀ (rd rs1 : Reg) (imm : Int), -2048 ≤ imm → imm ≤ 2047 →
    decodeWord (BitVec.ofInt 12 imm ++ regBits rs1 ++ 0b000#3 ++ regBits rd ++ 0b1100111#7) = .instr (.jalr rd rs1 imm) ∧
    ∀ (s : State) (temp : Word), temp = s.readReg rs1 + (BitVec.ofInt 12 imm).signExtend 32 →
      ∃ t, exec (.jalr rd rs1 imm) s = .next t ∧ writesReg rd (s.pc + 4) s t ∧
        (∀ n < 32, t.pc.getLsbD n = (decide (n ≠ 0) && temp.getLsbD n)) ∧ keepsRest s t ∧
        (s.fault = none → t.pc.getLsbD 1 = true →
          ∃ u, step t = .next u ∧ takesFault .instructionAddressMisaligned t.pc t u)

/-! ### Registers and immediates -/

/-- R11, whole. x0 reads as 0 in every state; a write to it changes no state; and an instruction whose destination is x0 does
everything the same instruction with another destination does (its access, its faults, its pc update), but for the register
write. -/
def Obligations.X0IsHardwiredZero : Prop :=
  (∀ (s : State) (v : Word), s.readReg 0 = 0 ∧ s.writeReg 0 v = s) ∧
  ∀ (i : Instr) (rd : Reg) (s t : State), dest i = some rd → exec i s = .next t →
    exec (withDestX0 i) s = .next (t.writeReg rd (s.readReg rd))

/-- Spec section 1 of 10_state.md, the table of what each instruction reads and writes ("nothing else touches the register
file", derived by the spec): a register that an instruction neither reads nor writes makes no difference to what it does,
and it keeps its value. -/
def Obligations.OnlyNamedRegistersMatter : Prop :=
  ∀ (i : Instr) (s : State) (q : Reg) (v : Word), q ∉ sources i → dest i ≠ some q →
    exec i (s.writeReg q v) = mapNext (fun t => t.writeReg q v) (exec i s)

/-- R47 and R48, whole. The S immediate of a word is the sign-extended `inst[31:25] ++ inst[11:7]`, not scaled, with sign
`inst[31]`, between -2048 and 2047; the U immediate gives `inst[31:12] ++ 0^12`. (The I immediate likewise from
`inst[31:20]`.) -/
def Obligations.ImmediatesReadTheirFields : Prop :=
  ∀ w : Word,
    sext32 (immSField w) = (w.extractLsb' 25 7 ++ w.extractLsb' 7 5 : BitVec 12).signExtend 32 ∧
    (immSField w < 0 ↔ w.getLsbD 31 = true) ∧ -2048 ≤ immSField w ∧ immSField w ≤ 2047 ∧
    sext32 (immIField w) = (w.extractLsb' 20 12).signExtend 32 ∧ -2048 ≤ immIField w ∧ immIField w ≤ 2047 ∧
    (immIField w < 0 ↔ w.getLsbD 31 = true) ∧
    upperImm (immUField w) = w &&& 0xFFFFF000 ∧ immUField w = w.toNat / 4096

/-! ### Encoding -/

/-- R50, whole. A word is the instruction of a row of the opcode map exactly when `inst & mask = match`. -/
def Obligations.DecodeIsTheOpcodeMap : Prop :=
  ∀ w : Word,
    ((∃ rd rs1 rs2, decodeWord w = .instr (.add rd rs1 rs2)) ↔ w &&& 0xFF08787F = 0x00000033) ∧
    ((∃ rd rs1 imm, decodeWord w = .instr (.addi rd rs1 imm)) ↔ w &&& 0x0008787F = 0x00000013) ∧
    ((∃ rd imm, decodeWord w = .instr (.lui rd imm)) ↔ w &&& 0x0000087F = 0x00000037) ∧
    ((∃ rd rs1 imm, decodeWord w = .instr (.lw rd rs1 imm)) ↔ w &&& 0x0008787F = 0x00002003) ∧
    ((∃ rd rs1 imm, decodeWord w = .instr (.lbu rd rs1 imm)) ↔ w &&& 0x0008787F = 0x00004003) ∧
    ((∃ rs2 rs1 imm, decodeWord w = .instr (.sw rs2 rs1 imm)) ↔ w &&& 0x0108707F = 0x00002023) ∧
    ((∃ rs2 rs1 imm, decodeWord w = .instr (.sb rs2 rs1 imm)) ↔ w &&& 0x0108707F = 0x00000023) ∧
    ((∃ rd rs1 imm, decodeWord w = .instr (.jalr rd rs1 imm)) ↔ w &&& 0x0008787F = 0x00000067)

/-- Decoding the word of a well-formed instruction gives that instruction, from the word and from its bytes in memory order
with the bytes after them left over. -/
def Obligations.DecodeOfEncode : Prop :=
  ∀ i : Instr, i.wf = true → decodeWord (encode i) = .instr i ∧
    ∀ rest : List Byte, decode (leBytes (encode i) ++ rest) = .instr (i, rest)

/-- Each legal word is the word of exactly one instruction: what a word decodes to is well-formed and encodes to that word. -/
def Obligations.EncodeOfDecode : Prop :=
  ∀ (w : Word) (i : Instr), decodeWord w = .instr i → i.wf = true ∧ encode i = w

/-- R54, whole. Every instruction takes exactly four bytes, and a word whose low two bits are not 11 is illegal. -/
def Obligations.OneLengthOnly : Prop :=
  (∀ (bytes rest : List Byte) (i : Instr), decode bytes = .instr (i, rest) → bytes.length = rest.length + 4) ∧
  ∀ w : Word, w.extractLsb' 0 2 ≠ 0b11#2 → illegalWord w = true

/-- The eight encoding examples of the source (95_test_vectors.md, E1 to E8). -/
def Obligations.SourceExamplesDecode : Prop :=
  decodeWord 0b00000000101000001000000100110011#32 = .instr (.add 2 1 10) ∧
  decodeWord 0b00000000010100001000000110010011#32 = .instr (.addi 3 1 5) ∧
  decodeWord 0b00010010001101000101001000110111#32 = .instr (.lui 4 0x12345) ∧
  decodeWord 0b00000000010000001010001010000011#32 = .instr (.lw 5 1 4) ∧
  decodeWord 0b00000000000000001100001100000011#32 = .instr (.lbu 6 1 0) ∧
  decodeWord 0b00000000011100001010010000100011#32 = .instr (.sw 7 1 8) ∧
  decodeWord 0b00000000100000001000000000100011#32 = .instr (.sb 8 1 0) ∧
  decodeWord 0b00000000000000010000000011100111#32 = .instr (.jalr 1 2 0)

/-! ### The step -/

/-- Section 2 of 10_state.md (the step, the spec's own order, D20): with no fault recorded, a pc that is a multiple of 4 and
four fetchable bytes whose word decodes to i, the step is the execution of i, at the same state but for the record of a
fetch that touched a device byte (log entry 5). -/
def Obligations.StepRunsDecodedInstruction : Prop :=
  ∀ (s : State) (i : Instr), s.fault = none → fetchOk s = true → decodeWord (s.wordAt s.pc) = .instr i →
    step s = exec i (afterFetch s) ∧ (plainWord s.platform s.pc = true → step s = exec i s)

/-- R109: the hart executes a step whenever no fault is recorded, and the word of WFI is illegal, so no instruction waits.
"Only then", the other half, is the spec's decision D5 (section 4 of 60_exceptions.md) in the model's form of it: a step
from a recorded fault answers no next state (log entry 6). -/
def Obligations.StepsWheneverNoFault : Prop :=
  (∀ s : State, (∃ t, step s = .next t) ↔ s.fault = none) ∧ illegalWord 0x10500073 = true

/-- Section 4 of 60_exceptions.md (the spec's decision D5): a recorded fault ends the run; every later step is that stop. -/
def Obligations.NoStepAfterFault : Prop :=
  ∀ (s : State) (r : FaultRecord), s.fault = some r → step s = .fault (.terminal r)

/-- Sections 1 and 3 of 60_exceptions.md (the spec's decisions D6, D10, D20): a pc that is no multiple of 4 is reported first,
whatever its bytes are; then a byte that is not fetchable; the recorded value is the pc. -/
def Obligations.FetchFaultsInOrder : Prop :=
  ∀ s : State, s.fault = none →
    (aligned4 s.pc = false → ∃ t, step s = .next t ∧ takesFault .instructionAddressMisaligned s.pc s t) ∧
    (aligned4 s.pc = true → (∃ k : Fin 4, fetchable s.platform (byteAddr s.pc k) = false) →
      ∃ t, step s = .next t ∧ takesFault .instructionAccessFault s.pc s t)

/-- Section 5 of 30_encoding.md (the spec's decisions D3, D4): a fetched word that matches no row of the opcode map raises
IllegalInstruction with the word as its value, and changes nothing else. -/
def Obligations.UnlistedWordIsIllegal : Prop :=
  ∀ (s : State) (w : Word), s.fault = none → fetchOk s = true → s.wordAt s.pc = w →
    w &&& 0xFF08787F ≠ 0x00000033 → w &&& 0x0008787F ≠ 0x00000013 → w &&& 0x0000087F ≠ 0x00000037 →
    w &&& 0x0008787F ≠ 0x00002003 → w &&& 0x0008787F ≠ 0x00004003 → w &&& 0x0108707F ≠ 0x00002023 →
    w &&& 0x0108707F ≠ 0x00000023 → w &&& 0x0008787F ≠ 0x00000067 →
    ∃ t, step s = .next t ∧ takesFault .illegalInstruction w (afterFetch s) t

/-- Section 1 of 60_exceptions.md (the table, the spec's decision D19): a step records a fault only where the table lets it,
with the table's value. ADD, ADDI, LUI and JALR raise nothing at execution. -/
def Obligations.FaultsComeFromTheirCauses : Prop :=
  ∀ (s t : State) (r : FaultRecord), step s = .next t → t.fault = some r → r.pc = s.pc ∧ raisedAsListed s r

/-- Section 4 of 60_exceptions.md (the spec's decision D21): a step that records a fault changes no register, no byte of
memory and not the pc. -/
def Obligations.FaultsArePrecise : Prop :=
  ∀ s t : State, step s = .next t → t.fault ≠ none → s.fault = none ∧ sameMachine s t

/-- Section 2 of 10_state.md and section 2 of 42_jump.md (derived by the spec; the wrap is its decision D7): a step that
records no fault advances the pc by 4, modulo 2^32, unless the instruction is JALR. -/
def Obligations.OnlyJalrLeavesSequence : Prop :=
  ∀ s t : State, step s = .next t → t.fault = none →
    t.pc = s.pc + 4 ∨ ∃ rd rs1 imm, decodeWord (s.wordAt s.pc) = .instr (.jalr rd rs1 imm)

/-- Section 5 of 70_reset_and_hazards.md (the spec's convention, D15; log entry 14): where a run has ended at a jump to
itself, further steps change no state. -/
def Obligations.EndedRunSpins : Prop :=
  ∀ (s : State) (rs1 : Reg), runEnded s = true → fetchOk s = true → plainWord s.platform s.pc = true →
    decodeWord (s.wordAt s.pc) = .instr (.jalr 0 rs1 0) → s.readReg rs1 = s.pc → step s = .next s

/-! ### Invariants and the whole machine -/

/-- Every step keeps the invariant: memory in canonical form, bit 0 of the pc clear, and a recorded fault that agrees with its
machine (R92's sentence "pc[0] can never be 1 after reset" among them; the faults are decisions D5, D6 of the spec, the
form of memory is the model's own). -/
def Obligations.StepKeepsInvariant : Prop := ∀ s t : State, Inv s → step s = .next t → Inv t

/-- The invariant holds at `State.reset`, and after the reset of every platform that meets the spec's constraints, with any
register contents and any loaded image. -/
def Obligations.ResetMeetsInvariant : Prop :=
  Inv State.reset ∧
  ∀ (p : Platform) (regs : Vector Word 15) (image : List Host.Cell), platformOk p = true →
    Inv (State.resetWith p regs image)

/-- Section 1 of 70_reset_and_hazards.md (the spec's decisions D13, D14): reset leaves the pc at `RESET_PC`, the fault record
empty, x0 zero, and in x1 to x15 and in memory whatever the platform left there; and the first instruction executed is the
word at `RESET_PC`. Every byte of the loaded image is in memory: an address holds the byte of the first cell for it, the
cells' addresses taken modulo 2^32, and nothing where no cell is for it. That of two cells for one address the first holds
(log entry 16), and that a byte of no cell is not stored and so reads as a free value (log entry 4), is the model's. -/
def Obligations.ResetEstablishesItsState : Prop :=
  ∀ (p : Platform) (regs : Vector Word 15) (image : List Host.Cell) (s : State),
    s = State.resetWith p regs image →
      s.pc = p.resetPc ∧ s.fault = none ∧ s.platform = p ∧ s.readReg 0 = 0 ∧
      (∀ k : Fin 15, s.readReg k.succ = regs[k]) ∧
      (∀ a : Nat, s.mem.read a = (image.find? (fun c => decide (c.1 % 4294967296 = a))).map Prod.snd) ∧
      (∀ i : Instr, platformOk p = true → plainWord p p.resetPc = true → decodeWord (s.wordAt p.resetPc) = .instr i →
        step s = exec i s)

/-- Sections 6 and 7 of 20_memory.md: no instruction can change `MEMMAP`, and none changes the other parameters (log entry
1). -/
def Obligations.StepKeepsPlatform : Prop := ∀ s t : State, step s = .next t → t.platform = s.platform

/-- Sections 6 and 7 of 20_memory.md: the permission bits protect memory: no step changes a byte that is not writable, and
none changes a byte of a device region (log entry 5). -/
def Obligations.UnwritableMemoryStays : Prop :=
  ∀ (s t : State) (a : Word), step s = .next t → (writable s.platform a = false ∨ isDevice s.platform a = true) →
    t.mem.read a.toNat = s.mem.read a.toNat

/-- Section 1 of 20_memory.md: only SW and SB reach data memory to write it, and each writes only the bytes of its own
access. -/
def Obligations.OnlyStoresWriteMemory : Prop :=
  ∀ (s t : State) (b : Nat), step s = .next t → t.mem.read b ≠ s.mem.read b →
    (∃ rs2 rs1 imm, decodeWord (s.wordAt s.pc) = .instr (.sw rs2 rs1 imm) ∧
      ∃ k : Fin 4, b = (byteAddr (s.effectiveAddress rs1 imm) k).toNat) ∨
    (∃ rs2 rs1 imm, decodeWord (s.wordAt s.pc) = .instr (.sb rs2 rs1 imm) ∧
      b = (s.effectiveAddress rs1 imm).toNat)

/-! ### Memory across instructions -/

/-- Section 8 of 20_memory.md (the spec's decision D12): a load returns what the most recent store put there: an LW that follows
an SW to the same granted main address, under either setting of `MISALIGNED_WORD`, gives the stored word. -/
def Obligations.LoadReturnsStoredWord : Prop :=
  ∀ (rs2 rs1 rd rs1' : Reg) (imm imm' : Int) (s t : State) (a : Word), a = s.effectiveAddress rs1 imm →
    storeWordOk s.platform a = true → loadWordOk s.platform a = true → plainWord s.platform a = true →
    exec (.sw rs2 rs1 imm) s = .next t → t.effectiveAddress rs1' imm' = a →
    ∃ u, exec (.lw rd rs1' imm') t = .next u ∧ writesReg rd (s.readReg rs2) t u

/-- Section 3 of 20_memory.md, the mixed-width view (the spec's decision D1): after a word store, byte k of it is bits
8k+7:8k; after a byte store into a word, the word has those bits replaced. -/
def Obligations.MixedWidthIsLittleEndian : Prop :=
  (∀ (rs2 rs1 rd rs1' : Reg) (imm imm' : Int) (s t : State) (a : Word) (k : Fin 4), a = s.effectiveAddress rs1 imm →
    storeWordOk s.platform a = true → plainWord s.platform a = true → readable s.platform (byteAddr a k) = true →
    exec (.sw rs2 rs1 imm) s = .next t → t.effectiveAddress rs1' imm' = byteAddr a k →
    ∃ u, exec (.lbu rd rs1' imm') t = .next u ∧
      writesReg rd (((s.readReg rs2).extractLsb' (8 * k.val) 8).setWidth 32) t u) ∧
  (∀ (rs2 rs1 rd rs1' : Reg) (imm imm' : Int) (s t : State) (a : Word) (k : Fin 4),
    byteAddr a k = s.effectiveAddress rs1 imm → writable s.platform (byteAddr a k) = true →
    loadWordOk s.platform a = true → plainWord s.platform a = true →
    exec (.sb rs2 rs1 imm) s = .next t → t.effectiveAddress rs1' imm' = a →
    ∃ u v, exec (.lw rd rs1' imm') t = .next u ∧ writesReg rd v t u ∧
      ∀ j : Fin 4, byteOf v j = if j = k then (s.readReg rs2).extractLsb' 0 8 else storedByte s (byteAddr a j))

/-- Section 11 of 20_memory.md (the spec's decision D11): the word an SW has stored at a fetchable main address is the word
that a later fetch from that address gives. -/
def Obligations.StoredWordIsFetched : Prop :=
  ∀ (rs2 rs1 : Reg) (imm : Int) (s t : State) (a : Word), a = s.effectiveAddress rs1 imm → aligned4 a = true →
    storeWordOk s.platform a = true → plainWord s.platform a = true →
    (wordAddrs a).all (fetchable s.platform) = true → exec (.sw rs2 rs1 imm) s = .next t →
    (t.setPc a).fetch = .ok (s.readReg rs2, t.setPc a)

/-- Section 4 of 20_memory.md (the spec's parameter `MISALIGNED_WORD`, D2): an instruction that makes no misaligned word access
behaves identically under both settings. -/
def Obligations.AlignedAccessIgnoresSetting : Prop :=
  ∀ (i : Instr) (s : State) (m : MisalignedWord), wordAccessAligned s i = true →
    exec i (withMisaligned m s) = mapNext (withMisaligned m) (exec i s)

/-- The MODEL's treatment of a device region, which the spec leaves to the platform (log entry 5): a load of a device byte
gives the free value of the accesses made so far and is recorded; a store to one is recorded and leaves memory as it was. -/
def Obligations.DeviceBytesAreFree : Prop :=
  (∀ (rd rs1 : Reg) (imm : Int) (s : State) (a : Word), a = s.effectiveAddress rs1 imm →
    readable s.platform a = true → isDevice s.platform a = true →
    ∃ t, exec (.lbu rd rs1 imm) s = .next t ∧
      writesReg rd ((Config.deviceByte s.deviceLog a.toNat).setWidth 32) s t ∧ t.mem = s.mem ∧
      t.deviceLog = .load a.toNat 1 :: s.deviceLog) ∧
  (∀ (rs2 rs1 : Reg) (imm : Int) (s : State) (a : Word), a = s.effectiveAddress rs1 imm →
    writable s.platform a = true → isDevice s.platform a = true →
    ∃ t, exec (.sb rs2 rs1 imm) s = .next t ∧ t.mem = s.mem ∧
      t.deviceLog = .store a.toNat 1 ((byteOf (s.readReg rs2) 0).setWidth 32) :: s.deviceLog)

/-- Section 5 of 20_memory.md (the spec's decision D22), for both word instructions and for words of which any of the bytes
are a device's. A granted LW or SW at a multiple of 4 is one access; a misaligned one, granted under `bytewise`, is four byte
accesses in ascending address order. That a device sees them in the model's record, that an aligned word touching a device
byte is recorded whole, that a main byte of a misaligned one is not recorded, that a device byte answers the free value of
the accesses before it, and that a stored device byte is not held in memory, is the MODEL's choice (log entry 5). The fetch,
the third word access, is always at a multiple of 4, and its one access is in `StepRunsDecodedInstruction`. -/
def Obligations.DeviceWordAtomicity : Prop :=
  (∀ (rd rs1 : Reg) (imm : Int) (s : State) (a : Word), a = s.effectiveAddress rs1 imm →
    loadWordOk s.platform a = true →
    ∃ v t, exec (.lw rd rs1 imm) s = .next t ∧ writesReg rd v s t ∧ t.mem = s.mem ∧
      t.deviceLog = wordEvents s.platform a (.load a.toNat 4) (fun k => .load (byteAddr a k).toNat 1) ++ s.deviceLog ∧
      ∀ k : Fin 4, isDevice s.platform (byteAddr a k) = true →
        byteOf v k =
          Config.deviceByte
            (if aligned4 a = true then s.deviceLog
              else byteEvents s.platform a (fun j => .load (byteAddr a j).toNat 1) k.val ++ s.deviceLog)
            (byteAddr a k).toNat) ∧
  (∀ (rs2 rs1 : Reg) (imm : Int) (s : State) (a v : Word), a = s.effectiveAddress rs1 imm → v = s.readReg rs2 →
    storeWordOk s.platform a = true →
    ∃ t, exec (.sw rs2 rs1 imm) s = .next t ∧
      (∀ k : Fin 4, isDevice s.platform (byteAddr a k) = true →
        t.mem.read (byteAddr a k).toNat = s.mem.read (byteAddr a k).toNat) ∧
      ((∀ k : Fin 4, isDevice s.platform (byteAddr a k) = true) → t.mem = s.mem) ∧
      t.deviceLog =
        wordEvents s.platform a (.store a.toNat 4 v)
          (fun k => .store (byteAddr a k).toNat 1 ((byteOf v k).setWidth 32)) ++ s.deviceLog)
end

