-- ==== Sys2Proof/Laws/PerInstr.lean ====
section
/-! SUPPORT. A law of every instruction as syntax: its word fits its row of the opcode map (spec/30_encoding.md R50). -/

namespace Sys2Proof.Laws.EncodingRow

/-- The word of the instruction, masked by its row, is the row's match value; so its register fields have their top bits
clear (R49), whatever the operands are. -/
def Statement (i : Instr) : Prop := encode i &&& rowMask i = rowMatch i

/-- A register's specifier field has its top bit clear (R49). -/
theorem regBits_top : ∀ r : Reg, (regBits r)[4] = false := by decide

theorem add (rd rs1 rs2 : Reg) : Statement (.add rd rs1 rs2) := by
  refine BitVec.eq_of_getLsbD_eq fun k hk => ?_
  simp only [encode, encodeR, rowMask, rowMatch, BitVec.getLsbD_and, BitVec.getLsbD_append]
  interval_cases k <;> simp [regBits_top]

theorem encodeI_fits (imm : BitVec 12) (rs1 rd : Reg) (funct3 : BitVec 3) (opcode : BitVec 7) :
    encodeI imm rs1 funct3 rd opcode &&& 0x0008787F = 0#17 ++ funct3 ++ 0#5 ++ opcode := by
  refine BitVec.eq_of_getLsbD_eq fun k hk => ?_
  simp only [encodeI, BitVec.getLsbD_and, BitVec.getLsbD_append]
  interval_cases k <;> simp [regBits_top]

theorem encodeS_fits (imm : BitVec 12) (rs2 rs1 : Reg) (funct3 : BitVec 3) (opcode : BitVec 7) :
    encodeS imm rs2 rs1 funct3 opcode &&& 0x0108707F = 0#17 ++ funct3 ++ 0#5 ++ opcode := by
  refine BitVec.eq_of_getLsbD_eq fun k hk => ?_
  simp only [encodeS, BitVec.getLsbD_and, BitVec.getLsbD_append]
  interval_cases k <;> simp [regBits_top]

theorem encodeU_fits (imm : BitVec 20) (rd : Reg) (opcode : BitVec 7) :
    encodeU imm rd opcode &&& 0x0000087F = 0#25 ++ opcode := by
  refine BitVec.eq_of_getLsbD_eq fun k hk => ?_
  simp only [encodeU, BitVec.getLsbD_and, BitVec.getLsbD_append]
  interval_cases k <;> simp [regBits_top]

theorem addi (rd rs1 : Reg) (imm : Int) : Statement (.addi rd rs1 imm) := encodeI_fits _ _ _ _ _
theorem lui (rd : Reg) (imm : Nat) : Statement (.lui rd imm) := encodeU_fits _ _ _
theorem lw (rd rs1 : Reg) (imm : Int) : Statement (.lw rd rs1 imm) := encodeI_fits _ _ _ _ _
theorem lbu (rd rs1 : Reg) (imm : Int) : Statement (.lbu rd rs1 imm) := encodeI_fits _ _ _ _ _
theorem sw (rs2 rs1 : Reg) (imm : Int) : Statement (.sw rs2 rs1 imm) := encodeS_fits _ _ _ _ _
theorem sb (rs2 rs1 : Reg) (imm : Int) : Statement (.sb rs2 rs1 imm) := encodeS_fits _ _ _ _ _
theorem jalr (rd rs1 : Reg) (imm : Int) : Statement (.jalr rd rs1 imm) := encodeI_fits _ _ _ _ _

end Sys2Proof.Laws.EncodingRow
end

