-- ==== Sys2Proof/Laws/Encoding.lean ====
section
/-! SUPPORT. Words and their bytes, and every field of an encoded word, read back. -/

namespace Sys2Proof

/-- The bytes of a word in memory order make the word again (R24). -/
theorem leWord_byteOf (w : Word) : leWord (byteOf w 0) (byteOf w 1) (byteOf w 2) (byteOf w 3) = w := by
  unfold leWord byteOf
  refine BitVec.eq_of_getLsbD_eq fun k hk => ?_
  simp only [BitVec.getLsbD_extractLsb', BitVec.getLsbD_append]
  interval_cases k <;> simp

/-- Byte k of a word made of four bytes is the k-th of them (R24). -/
theorem byteOf_leWord (b0 b1 b2 b3 : Byte) :
    byteOf (leWord b0 b1 b2 b3) 0 = b0 ∧ byteOf (leWord b0 b1 b2 b3) 1 = b1 ∧
      byteOf (leWord b0 b1 b2 b3) 2 = b2 ∧ byteOf (leWord b0 b1 b2 b3) 3 = b3 := by
  unfold leWord byteOf
  refine ⟨?_, ?_, ?_, ?_⟩ <;>
    (refine BitVec.eq_of_getLsbD_eq fun k hk => ?_
     simp only [BitVec.getLsbD_extractLsb', BitVec.getLsbD_append]
     interval_cases k <;> simp)

/-- Two words with the same four bytes are equal. -/
theorem word_eq_of_bytes (v w : Word) (h : ∀ k : Fin 4, byteOf v k.val = byteOf w k.val) : v = w := by
  rw [← leWord_byteOf v, ← leWord_byteOf w]
  exact congr (congr (congr (congrArg leWord (h 0)) (h 1)) (h 2)) (h 3)

/-- The low four bits of a register's specifier field are its number (R49). -/
theorem regBits_low : ∀ r : Reg, ((regBits r).extractLsb' 0 4).toFin = r := by decide

/-- A specifier field with its top bit clear is the field of the register in its low four bits (R49). -/
theorem regBits_of_low : ∀ x : BitVec 5, x.getLsbD 4 = false → regBits (x.extractLsb' 0 4).toFin = x := by decide

/-- A 12-bit immediate in range is read back from its field (R46, R47, R56). -/
theorem toInt_ofInt_of_fits (imm : Int) (h : immFits imm = true) : (BitVec.ofInt 12 imm).toInt = imm := by
  simp only [immFits, Bool.and_eq_true, decide_eq_true_eq] at h
  rw [BitVec.toInt_ofInt]
  apply Int.bmod_eq_of_le <;> omega

/-- What a 12-bit field reads as is in range (R46, R47). -/
theorem fits_toInt (x : BitVec 12) : immFits x.toInt = true := by
  have h1 := BitVec.toInt_lt (x := x)
  have h2 := BitVec.le_toInt (x := x)
  simp only [immFits, Bool.and_eq_true, decide_eq_true_eq]
  omega

/-- A bit that a mask selects is the bit of the masked word. -/
theorem getLsbD_of_masked (w m v : Word) (h : w &&& m = v) (k : Nat) (hk : m.getLsbD k = true) :
    w.getLsbD k = v.getLsbD k := by
  rw [← h]; simp [hk]

/-! ### The selecting fields of an encoded word (R41 to R45) -/

theorem opcodeField_encodeR (f7 : BitVec 7) (r2 r1 rd : Reg) (f3 : BitVec 3) (op : BitVec 7) :
    opcodeField (encodeR f7 r2 r1 f3 rd op) = op := by
  refine BitVec.eq_of_getLsbD_eq fun k hk => ?_
  simp only [encodeR, opcodeField, BitVec.getLsbD_extractLsb', BitVec.getLsbD_append]
  interval_cases k <;> simp

theorem opcodeField_encodeI (imm : BitVec 12) (r1 rd : Reg) (f3 : BitVec 3) (op : BitVec 7) :
    opcodeField (encodeI imm r1 f3 rd op) = op := by
  refine BitVec.eq_of_getLsbD_eq fun k hk => ?_
  simp only [encodeI, opcodeField, BitVec.getLsbD_extractLsb', BitVec.getLsbD_append]
  interval_cases k <;> simp

theorem opcodeField_encodeS (imm : BitVec 12) (r2 r1 : Reg) (f3 : BitVec 3) (op : BitVec 7) :
    opcodeField (encodeS imm r2 r1 f3 op) = op := by
  refine BitVec.eq_of_getLsbD_eq fun k hk => ?_
  simp only [encodeS, opcodeField, BitVec.getLsbD_extractLsb', BitVec.getLsbD_append]
  interval_cases k <;> simp

theorem opcodeField_encodeU (imm : BitVec 20) (rd : Reg) (op : BitVec 7) :
    opcodeField (encodeU imm rd op) = op := by
  refine BitVec.eq_of_getLsbD_eq fun k hk => ?_
  simp only [encodeU, opcodeField, BitVec.getLsbD_extractLsb', BitVec.getLsbD_append]
  interval_cases k <;> simp

theorem funct3Field_encodeR (f7 : BitVec 7) (r2 r1 rd : Reg) (f3 : BitVec 3) (op : BitVec 7) :
    funct3Field (encodeR f7 r2 r1 f3 rd op) = f3 := by
  refine BitVec.eq_of_getLsbD_eq fun k hk => ?_
  simp only [encodeR, funct3Field, BitVec.getLsbD_extractLsb', BitVec.getLsbD_append]
  interval_cases k <;> simp

theorem funct3Field_encodeI (imm : BitVec 12) (r1 rd : Reg) (f3 : BitVec 3) (op : BitVec 7) :
    funct3Field (encodeI imm r1 f3 rd op) = f3 := by
  refine BitVec.eq_of_getLsbD_eq fun k hk => ?_
  simp only [encodeI, funct3Field, BitVec.getLsbD_extractLsb', BitVec.getLsbD_append]
  interval_cases k <;> simp

theorem funct3Field_encodeS (imm : BitVec 12) (r2 r1 : Reg) (f3 : BitVec 3) (op : BitVec 7) :
    funct3Field (encodeS imm r2 r1 f3 op) = f3 := by
  refine BitVec.eq_of_getLsbD_eq fun k hk => ?_
  simp only [encodeS, funct3Field, BitVec.getLsbD_extractLsb', BitVec.getLsbD_append]
  interval_cases k <;> simp

theorem funct7Field_encodeR (f7 : BitVec 7) (r2 r1 rd : Reg) (f3 : BitVec 3) (op : BitVec 7) :
    funct7Field (encodeR f7 r2 r1 f3 rd op) = f7 := by
  refine BitVec.eq_of_getLsbD_eq fun k hk => ?_
  simp only [encodeR, funct7Field, BitVec.getLsbD_extractLsb', BitVec.getLsbD_append]
  interval_cases k <;> simp

end Sys2Proof
end

