-- ==== Sys2Proof/Laws/State.lean ====
section
/-! SUPPORT. One lemma per field per update of State, and registers read back through each update, so that no later
proof unfolds a record update. -/

namespace Sys2Proof.Machine

@[simp] theorem add32_eq (a b : Word) : add32 a b = a + b := by
  simp [add32, BitVec.ofNat_add]

/-! ### setPc and advance -/

@[simp] theorem State.setPc_regs (s : State) (t : Word) : (s.setPc t).regs = s.regs := rfl
@[simp] theorem State.setPc_pc (s : State) (t : Word) : (s.setPc t).pc = t := rfl
@[simp] theorem State.setPc_mem (s : State) (t : Word) : (s.setPc t).mem = s.mem := rfl
@[simp] theorem State.setPc_fault (s : State) (t : Word) : (s.setPc t).fault = s.fault := rfl
@[simp] theorem State.setPc_platform (s : State) (t : Word) : (s.setPc t).platform = s.platform := rfl
@[simp] theorem State.setPc_deviceLog (s : State) (t : Word) : (s.setPc t).deviceLog = s.deviceLog := rfl
@[simp] theorem State.readReg_setPc (s : State) (t : Word) (r : Reg) : (s.setPc t).readReg r = s.readReg r := rfl

@[simp] theorem State.advance_regs (s : State) : s.advance.regs = s.regs := rfl
@[simp] theorem State.advance_pc (s : State) : s.advance.pc = s.pc + 4 := by simp [State.advance]
@[simp] theorem State.advance_mem (s : State) : s.advance.mem = s.mem := rfl
@[simp] theorem State.advance_fault (s : State) : s.advance.fault = s.fault := rfl
@[simp] theorem State.advance_platform (s : State) : s.advance.platform = s.platform := rfl
@[simp] theorem State.advance_deviceLog (s : State) : s.advance.deviceLog = s.deviceLog := rfl
@[simp] theorem State.readReg_advance (s : State) (r : Reg) : s.advance.readReg r = s.readReg r := rfl

/-! ### writeReg -/

@[simp] theorem State.writeReg_zero (s : State) (v : Word) : s.writeReg 0 v = s := by simp [State.writeReg]
@[simp] theorem State.writeReg_pc (s : State) (r : Reg) (v : Word) : (s.writeReg r v).pc = s.pc := by
  unfold State.writeReg; split <;> rfl
@[simp] theorem State.writeReg_mem (s : State) (r : Reg) (v : Word) : (s.writeReg r v).mem = s.mem := by
  unfold State.writeReg; split <;> rfl
@[simp] theorem State.writeReg_fault (s : State) (r : Reg) (v : Word) : (s.writeReg r v).fault = s.fault := by
  unfold State.writeReg; split <;> rfl
@[simp] theorem State.writeReg_platform (s : State) (r : Reg) (v : Word) :
    (s.writeReg r v).platform = s.platform := by
  unfold State.writeReg; split <;> rfl
@[simp] theorem State.writeReg_deviceLog (s : State) (r : Reg) (v : Word) :
    (s.writeReg r v).deviceLog = s.deviceLog := by
  unfold State.writeReg; split <;> rfl

@[simp] theorem State.readReg_zero (s : State) : s.readReg 0 = 0 := by simp [State.readReg]

/-- x[r] after `x[q] <- v` (R11): v if q = r and q is not x0, else the old value. -/
theorem State.readReg_writeReg (s : State) (q r : Reg) (v : Word) :
    (s.writeReg q v).readReg r = if r = q ∧ q ≠ 0 then v else s.readReg r := by
  by_cases hq : q = 0
  · simp [hq]
  · by_cases hr : r = 0
    · subst hr
      simp [Ne.symm hq]
    · have hq' : q.val ≠ 0 := fun h => hq (Fin.ext h)
      have hr' : r.val ≠ 0 := fun h => hr (Fin.ext h)
      simp only [State.writeReg, State.readReg, hq, hr, if_false, Vector.getElem_set]
      by_cases hqr : r = q
      · simp [hqr, hq]
      · have : q.val - 1 ≠ r.val - 1 := fun h => hqr (Fin.ext (by omega))
        simp [this, hqr]

/-! ### retire -/

@[simp] theorem State.retire_pc (s : State) (r : Reg) (v : Word) : (s.retire r v).pc = s.pc + 4 := by
  simp [State.retire]
@[simp] theorem State.retire_mem (s : State) (r : Reg) (v : Word) : (s.retire r v).mem = s.mem := by
  simp [State.retire]
@[simp] theorem State.retire_fault (s : State) (r : Reg) (v : Word) : (s.retire r v).fault = s.fault := by
  simp [State.retire]
@[simp] theorem State.retire_platform (s : State) (r : Reg) (v : Word) :
    (s.retire r v).platform = s.platform := by
  simp [State.retire]
@[simp] theorem State.retire_deviceLog (s : State) (r : Reg) (v : Word) :
    (s.retire r v).deviceLog = s.deviceLog := by
  simp [State.retire]
theorem State.readReg_retire (s : State) (q r : Reg) (v : Word) :
    (s.retire q v).readReg r = if r = q ∧ q ≠ 0 then v else s.readReg r := by
  simp [State.retire, State.readReg_writeReg]

/-! ### raise -/

@[simp] theorem State.raise_regs (s : State) (c : Cause) (v : Word) : (s.raise c v).regs = s.regs := rfl
@[simp] theorem State.raise_pc (s : State) (c : Cause) (v : Word) : (s.raise c v).pc = s.pc := rfl
@[simp] theorem State.raise_mem (s : State) (c : Cause) (v : Word) : (s.raise c v).mem = s.mem := rfl
@[simp] theorem State.raise_fault (s : State) (c : Cause) (v : Word) :
    (s.raise c v).fault = some { cause := c, pc := s.pc, value := v } := rfl
@[simp] theorem State.raise_platform (s : State) (c : Cause) (v : Word) : (s.raise c v).platform = s.platform := rfl
@[simp] theorem State.raise_deviceLog (s : State) (c : Cause) (v : Word) : (s.raise c v).deviceLog = s.deviceLog := rfl
@[simp] theorem State.readReg_raise (s : State) (c : Cause) (v : Word) (r : Reg) :
    (s.raise c v).readReg r = s.readReg r := rfl

/-! ### noteDevice -/

@[simp] theorem State.noteDevice_regs (s : State) (e : DeviceAccess) (as : List Word) :
    (s.noteDevice e as).regs = s.regs := by
  unfold State.noteDevice; split <;> rfl
@[simp] theorem State.noteDevice_pc (s : State) (e : DeviceAccess) (as : List Word) :
    (s.noteDevice e as).pc = s.pc := by
  unfold State.noteDevice; split <;> rfl
@[simp] theorem State.noteDevice_mem (s : State) (e : DeviceAccess) (as : List Word) :
    (s.noteDevice e as).mem = s.mem := by
  unfold State.noteDevice; split <;> rfl
@[simp] theorem State.noteDevice_fault (s : State) (e : DeviceAccess) (as : List Word) :
    (s.noteDevice e as).fault = s.fault := by
  unfold State.noteDevice; split <;> rfl
@[simp] theorem State.noteDevice_platform (s : State) (e : DeviceAccess) (as : List Word) :
    (s.noteDevice e as).platform = s.platform := by
  unfold State.noteDevice; split <;> rfl
@[simp] theorem State.readReg_noteDevice (s : State) (e : DeviceAccess) (as : List Word) (r : Reg) :
    (s.noteDevice e as).readReg r = s.readReg r := by
  unfold State.noteDevice; split <;> rfl

/-- What an access leaves in the record of device accesses. -/
theorem State.noteDevice_deviceLog (s : State) (e : DeviceAccess) (as : List Word) :
    (s.noteDevice e as).deviceLog = if as.any (isDevice s.platform) then e :: s.deviceLog else s.deviceLog := by
  unfold State.noteDevice; split <;> rfl

/-- An access that touches no device byte leaves no record. -/
theorem State.noteDevice_of_main (s : State) (e : DeviceAccess) (as : List Word)
    (h : as.any (isDevice s.platform) = false) : s.noteDevice e as = s := by
  simp [State.noteDevice, h]

/-! ### putByte -/

@[simp] theorem State.putByte_regs (s : State) (a : Word) (b : Byte) : (s.putByte a b).regs = s.regs := by
  unfold State.putByte; split <;> rfl
@[simp] theorem State.putByte_pc (s : State) (a : Word) (b : Byte) : (s.putByte a b).pc = s.pc := by
  unfold State.putByte; split <;> rfl
@[simp] theorem State.putByte_fault (s : State) (a : Word) (b : Byte) : (s.putByte a b).fault = s.fault := by
  unfold State.putByte; split <;> rfl
@[simp] theorem State.putByte_platform (s : State) (a : Word) (b : Byte) :
    (s.putByte a b).platform = s.platform := by
  unfold State.putByte; split <;> rfl
@[simp] theorem State.putByte_deviceLog (s : State) (a : Word) (b : Byte) :
    (s.putByte a b).deviceLog = s.deviceLog := by
  unfold State.putByte; split <;> rfl
@[simp] theorem State.readReg_putByte (s : State) (a : Word) (b : Byte) (r : Reg) :
    (s.putByte a b).readReg r = s.readReg r := by
  unfold State.putByte; split <;> rfl

/-! ### putWord, storeByteAccess, storeWordAccess -/

@[simp] theorem State.putWord_regs (s : State) (a v : Word) : (s.putWord a v).regs = s.regs := by simp [State.putWord]
@[simp] theorem State.putWord_pc (s : State) (a v : Word) : (s.putWord a v).pc = s.pc := by simp [State.putWord]
@[simp] theorem State.putWord_fault (s : State) (a v : Word) : (s.putWord a v).fault = s.fault := by
  simp [State.putWord]
@[simp] theorem State.putWord_platform (s : State) (a v : Word) : (s.putWord a v).platform = s.platform := by
  simp [State.putWord]
@[simp] theorem State.putWord_deviceLog (s : State) (a v : Word) : (s.putWord a v).deviceLog = s.deviceLog := by
  simp [State.putWord]
@[simp] theorem State.readReg_putWord (s : State) (a v : Word) (r : Reg) :
    (s.putWord a v).readReg r = s.readReg r := by
  simp [State.putWord]

@[simp] theorem State.storeByteAccess_regs (s : State) (a : Word) (b : Byte) :
    (s.storeByteAccess a b).regs = s.regs := by simp [State.storeByteAccess]
@[simp] theorem State.storeByteAccess_pc (s : State) (a : Word) (b : Byte) : (s.storeByteAccess a b).pc = s.pc := by
  simp [State.storeByteAccess]
@[simp] theorem State.storeByteAccess_mem (s : State) (a : Word) (b : Byte) :
    (s.storeByteAccess a b).mem = (s.putByte a b).mem := by simp [State.storeByteAccess]
@[simp] theorem State.storeByteAccess_fault (s : State) (a : Word) (b : Byte) :
    (s.storeByteAccess a b).fault = s.fault := by simp [State.storeByteAccess]
@[simp] theorem State.storeByteAccess_platform (s : State) (a : Word) (b : Byte) :
    (s.storeByteAccess a b).platform = s.platform := by simp [State.storeByteAccess]
@[simp] theorem State.readReg_storeByteAccess (s : State) (a : Word) (b : Byte) (r : Reg) :
    (s.storeByteAccess a b).readReg r = s.readReg r := by simp [State.storeByteAccess]

@[simp] theorem State.storeWordAccess_regs (s : State) (a v : Word) : (s.storeWordAccess a v).regs = s.regs := by
  unfold State.storeWordAccess; split <;> simp
@[simp] theorem State.storeWordAccess_pc (s : State) (a v : Word) : (s.storeWordAccess a v).pc = s.pc := by
  unfold State.storeWordAccess; split <;> simp
@[simp] theorem State.storeWordAccess_fault (s : State) (a v : Word) :
    (s.storeWordAccess a v).fault = s.fault := by
  unfold State.storeWordAccess; split <;> simp
@[simp] theorem State.storeWordAccess_platform (s : State) (a v : Word) :
    (s.storeWordAccess a v).platform = s.platform := by
  unfold State.storeWordAccess; split <;> simp
@[simp] theorem State.readReg_storeWordAccess (s : State) (a v : Word) (r : Reg) :
    (s.storeWordAccess a v).readReg r = s.readReg r := by
  unfold State.storeWordAccess; split <;> simp

theorem State.storeByteAccess_deviceLog (s : State) (a : Word) (b : Byte) :
    (s.storeByteAccess a b).deviceLog =
      if isDevice s.platform a then .store a.toNat 1 (b.setWidth 32) :: s.deviceLog else s.deviceLog := by
  simp [State.storeByteAccess, State.noteDevice_deviceLog]

/-! ### loadByteAccess, loadWordAccess -/

@[simp] theorem State.loadByteAccess_value (s : State) (a : Word) : (s.loadByteAccess a).1 = s.byteAt a := rfl
@[simp] theorem State.loadByteAccess_regs (s : State) (a : Word) : (s.loadByteAccess a).2.regs = s.regs := by
  simp [State.loadByteAccess]
@[simp] theorem State.loadByteAccess_pc (s : State) (a : Word) : (s.loadByteAccess a).2.pc = s.pc := by
  simp [State.loadByteAccess]
@[simp] theorem State.loadByteAccess_mem (s : State) (a : Word) : (s.loadByteAccess a).2.mem = s.mem := by
  simp [State.loadByteAccess]
@[simp] theorem State.loadByteAccess_fault (s : State) (a : Word) : (s.loadByteAccess a).2.fault = s.fault := by
  simp [State.loadByteAccess]
@[simp] theorem State.loadByteAccess_platform (s : State) (a : Word) :
    (s.loadByteAccess a).2.platform = s.platform := by simp [State.loadByteAccess]
@[simp] theorem State.readReg_loadByteAccess (s : State) (a : Word) (r : Reg) :
    (s.loadByteAccess a).2.readReg r = s.readReg r := by simp [State.loadByteAccess]

theorem State.loadByteAccess_deviceLog (s : State) (a : Word) :
    (s.loadByteAccess a).2.deviceLog =
      if isDevice s.platform a then .load a.toNat 1 :: s.deviceLog else s.deviceLog := by
  simp [State.loadByteAccess, State.noteDevice_deviceLog]

@[simp] theorem State.loadWordAccess_regs (s : State) (a : Word) : (s.loadWordAccess a).2.regs = s.regs := by
  unfold State.loadWordAccess; split <;> simp
@[simp] theorem State.loadWordAccess_pc (s : State) (a : Word) : (s.loadWordAccess a).2.pc = s.pc := by
  unfold State.loadWordAccess; split <;> simp
@[simp] theorem State.loadWordAccess_mem (s : State) (a : Word) : (s.loadWordAccess a).2.mem = s.mem := by
  unfold State.loadWordAccess; split <;> simp
@[simp] theorem State.loadWordAccess_fault (s : State) (a : Word) : (s.loadWordAccess a).2.fault = s.fault := by
  unfold State.loadWordAccess; split <;> simp
@[simp] theorem State.loadWordAccess_platform (s : State) (a : Word) :
    (s.loadWordAccess a).2.platform = s.platform := by
  unfold State.loadWordAccess; split <;> simp
@[simp] theorem State.readReg_loadWordAccess (s : State) (a : Word) (r : Reg) :
    (s.loadWordAccess a).2.readReg r = s.readReg r := by
  unfold State.loadWordAccess; split <;> simp

/-! ### placeWord -/

@[simp] theorem State.placeWord_regs (s : State) (a w : Word) : (s.placeWord a w).regs = s.regs := rfl
@[simp] theorem State.placeWord_pc (s : State) (a w : Word) : (s.placeWord a w).pc = s.pc := rfl
@[simp] theorem State.placeWord_fault (s : State) (a w : Word) : (s.placeWord a w).fault = s.fault := rfl
@[simp] theorem State.placeWord_platform (s : State) (a w : Word) : (s.placeWord a w).platform = s.platform := rfl
@[simp] theorem State.placeWord_deviceLog (s : State) (a w : Word) : (s.placeWord a w).deviceLog = s.deviceLog := rfl

end Sys2Proof.Machine
end

