-- ==== Sys2Proof/Laws/Memory.lean ====
section
/-! SUPPORT. The laws of memory as data: a read after a write, and the canonical form that every memory operation keeps. -/

namespace Sys2Proof.Machine

@[simp] theorem Memory.read_write_same (m : Memory) (a : Nat) (v : Byte) : (Memory.write m a v).read a = some v := by
  induction m with
  | nil => simp [Memory.write, Memory.read]
  | cons c m ih =>
    simp only [Memory.write]
    split
    · simp [Memory.read]
    · split
      · simp [Memory.read]
      · next h => simp [Memory.read, ih, Ne.symm h]

theorem Memory.read_write_of_ne (m : Memory) (a b : Nat) (v : Byte) (h : b ≠ a) :
    (Memory.write m a v).read b = m.read b := by
  induction m with
  | nil => simp [Memory.write, Memory.read, Ne.symm h]
  | cons c m ih =>
    simp only [Memory.write]
    split
    · simp [Memory.read, Ne.symm h]
    · split
      · next heq => simp [Memory.read, ← heq, Ne.symm h]
      · simp [Memory.read, ih]

/-- A read of one byte after a write of one byte. -/
theorem Memory.read_write (m : Memory) (a b : Nat) (v : Byte) :
    (Memory.write m a v).read b = if b = a then some v else m.read b := by
  split
  · next h => subst h; simp
  · next h => exact Memory.read_write_of_ne m a b v h

/-- The canonical form of a list with a head: the head is below 2^32, below the next address, and the rest is in canonical
form. -/
theorem Memory.wf_cons (a : Nat) (v : Byte) (m : Memory) :
    Memory.wf ((a, v) :: m) = true ↔ a < 4294967296 ∧ (∀ c ∈ m.head?, a < c.1) ∧ Memory.wf m = true := by
  induction m generalizing a v with
  | nil => simp [Memory.wf]
  | cons c m ih =>
    obtain ⟨b, u⟩ := c
    have h := ih b u
    simp only [Memory.wf, Bool.and_eq_true, decide_eq_true_eq, List.head?_cons, Option.mem_def, Option.some.injEq,
      forall_eq']
    constructor
    · rintro ⟨h1, h2⟩
      have := (h.mp h2).1
      exact ⟨by omega, h1, h2⟩
    · rintro ⟨-, h1, h2⟩
      exact ⟨h1, h2⟩

/-- The first address of memory after a write is the old one or the one written. -/
theorem Memory.head_write (m : Memory) (a : Nat) (v : Byte) :
    ∀ c ∈ (Memory.write m a v).head?, c.1 = a ∨ ∃ d ∈ m.head?, c.1 = d.1 := by
  cases m with
  | nil => simp [Memory.write]
  | cons d m =>
    simp only [Memory.write]
    split
    · simp
    · split <;> simp

/-- A write below 2^32 keeps the canonical form. -/
theorem Memory.wf_write (m : Memory) (a : Nat) (v : Byte) (ha : a < 4294967296) (h : Memory.wf m = true) :
    Memory.wf (Memory.write m a v) = true := by
  induction m with
  | nil => simpa [Memory.write, Memory.wf] using ha
  | cons c m ih =>
    obtain ⟨k, u⟩ := c
    have hc := (Memory.wf_cons k u m).mp h
    simp only [Memory.write]
    split
    · next hlt => exact (Memory.wf_cons _ _ _).mpr ⟨ha, by simpa using hlt, h⟩
    · split
      · next heq => subst heq; exact (Memory.wf_cons _ _ _).mpr ⟨hc.1, hc.2.1, hc.2.2⟩
      · next hlt hne =>
        refine (Memory.wf_cons _ _ _).mpr ⟨hc.1, ?_, ih hc.2.2⟩
        intro d hd
        rcases Memory.head_write m a v d hd with h1 | ⟨e, he, h1⟩
        · omega
        · rw [h1]; exact hc.2.1 e he

/-- What the loader's memory holds at an address once one more cell is placed before the others (R112). -/
theorem Memory.read_ofImage_cons (k : Nat) (v : Byte) (cells : List Host.Cell) (a : Nat) :
    (Memory.ofImage ((k, v) :: cells)).read a =
      if a = k % 4294967296 then some v else (Memory.ofImage cells).read a :=
  Memory.read_write _ _ _ _

/-- A loader leaves memory in canonical form (R112). -/
theorem Memory.wf_ofImage (cells : List Host.Cell) : Memory.wf (Memory.ofImage cells) = true := by
  induction cells with
  | nil => rfl
  | cons c cells ih => exact Memory.wf_write _ _ _ (Nat.mod_lt _ (by decide)) ih

/-- A store of a byte keeps the canonical form. -/
theorem State.putByte_wf (s : State) (a : Word) (b : Byte) (h : s.mem.wf = true) : (s.putByte a b).mem.wf = true := by
  unfold State.putByte
  split
  · exact h
  · exact Memory.wf_write _ _ _ a.isLt h

/-- A store of a word keeps the canonical form. -/
theorem State.storeWordAccess_wf (s : State) (a v : Word) (h : s.mem.wf = true) :
    (s.storeWordAccess a v).mem.wf = true := by
  unfold State.storeWordAccess
  split
  · simp only [State.noteDevice_mem, State.putWord]
    exact State.putByte_wf _ _ _ (State.putByte_wf _ _ _ (State.putByte_wf _ _ _ (State.putByte_wf _ _ _ h)))
  · simp only [State.storeByteAccess_mem]
    refine State.putByte_wf _ _ _ ?_
    simp only [State.storeByteAccess_mem]
    refine State.putByte_wf _ _ _ ?_
    simp only [State.storeByteAccess_mem]
    refine State.putByte_wf _ _ _ ?_
    simp only [State.storeByteAccess_mem]
    exact State.putByte_wf _ _ _ h

/-- The loader's placing of a word keeps the canonical form. -/
theorem State.placeWord_wf (s : State) (a w : Word) (h : s.mem.wf = true) : (s.placeWord a w).mem.wf = true :=
  Memory.wf_write _ _ _ (BitVec.isLt _) (Memory.wf_write _ _ _ (BitVec.isLt _)
    (Memory.wf_write _ _ _ (BitVec.isLt _) (Memory.wf_write _ _ _ (BitVec.isLt _) h)))

/-- Memory is in canonical form right after reset. -/
theorem State.reset_mem_wf : State.reset.mem.wf = true := rfl

/-- `State.reset` is the reset of R110 on the platform of log entry 2, with the register values of log entry 3. -/
theorem State.reset_eq : State.reset = State.resetWith Config.resetPlatform (Vector.replicate 15 0) [] := rfl

end Sys2Proof.Machine
end

