-- ==== Sys2Proof/Laws/Ops.lean ====
section
/-! SUPPORT. One lemma per shared operation that says everything it can do: the checked accesses, the fetch, and the
step. -/

namespace Sys2Proof.Machine

/-- The register file is what the fifteen writable registers read as. -/
theorem State.regs_eq_of_readReg (s t : State) (h : ∀ r, t.readReg r = s.readReg r) : t.regs = s.regs := by
  apply Vector.ext
  intro k hk
  have hr := h ⟨k + 1, by omega⟩
  have hne : (⟨k + 1, by omega⟩ : Reg) ≠ 0 := by simp [Fin.ext_iff]
  simpa [State.readReg, hne] using hr

/-- Two states with equal fields are equal. -/
theorem State.eq_of_fields (s t : State) (hr : ∀ r, t.readReg r = s.readReg r) (hp : t.pc = s.pc) (hm : t.mem = s.mem)
    (hf : t.fault = s.fault) (hq : t.platform = s.platform) (hd : t.deviceLog = s.deviceLog) : t = s := by
  have := State.regs_eq_of_readReg s t hr
  cases s
  cases t
  simp_all

/-! ### Stores, byte by byte -/

/-- What a byte of memory holds after a byte has been put: a device byte is not held in memory. -/
theorem State.read_putByte (s : State) (a : Word) (b : Byte) (c : Nat) :
    (s.putByte a b).mem.read c =
      if isDevice s.platform a = false ∧ c = a.toNat then some b else s.mem.read c := by
  unfold State.putByte
  split
  · next h => simp [h]
  · next h => simp [h, Memory.read_write]

/-- The memory of a stored word does not depend on how its bytes are grouped into accesses (R28). -/
theorem State.storeWordAccess_mem (s : State) (a v : Word) : (s.storeWordAccess a v).mem = (s.putWord a v).mem := by
  have key : ∀ (p q : State) (c : Word) (b : Byte), p.mem = q.mem → p.platform = q.platform →
      (p.putByte c b).mem = (q.putByte c b).mem := by
    intro p q c b hm hp
    simp only [State.putByte, hp]
    split <;> simp [hm]
  unfold State.storeWordAccess
  split
  · simp
  · simp only [State.storeByteAccess_mem, State.putWord]
    refine key _ _ _ _ ?_ (by simp)
    simp only [State.storeByteAccess_mem]
    refine key _ _ _ _ ?_ (by simp)
    simp only [State.storeByteAccess_mem]
    refine key _ _ _ _ ?_ (by simp)
    simp only [State.storeByteAccess_mem]

/-- What memory holds at an address after a word has been put, the four bytes being at `a` to `a + 3` modulo 2^32 (R23). -/
theorem State.read_putWord (s : State) (a v : Word) (c : Nat) :
    (s.putWord a v).mem.read c =
      if isDevice s.platform (a + 3) = false ∧ c = (a + 3).toNat then some (byteOf v 3)
      else if isDevice s.platform (a + 2) = false ∧ c = (a + 2).toNat then some (byteOf v 2)
      else if isDevice s.platform (a + 1) = false ∧ c = (a + 1).toNat then some (byteOf v 1)
      else if isDevice s.platform a = false ∧ c = a.toNat then some (byteOf v 0)
      else s.mem.read c := by
  simp only [State.putWord, State.read_putByte, State.putByte_platform, add32_eq]

/-- A store of a word that touches no device byte leaves no record. -/
theorem State.storeWordAccess_deviceLog_of_main (s : State) (a v : Word)
    (h : (wordAddrs a).any (isDevice s.platform) = false) : (s.storeWordAccess a v).deviceLog = s.deviceLog := by
  have h' := h
  simp only [wordAddrs, List.any_cons, List.any_nil, Bool.or_false, Bool.or_eq_false_iff] at h'
  obtain ⟨h0, h1, h2, h3⟩ := h'
  unfold State.storeWordAccess
  split
  · rw [State.noteDevice_of_main _ _ _ (by simpa using h), State.putWord_deviceLog]
  · have hb : ∀ (u : State) (c : Word) (b : Byte), u.platform = s.platform → isDevice s.platform c = false →
        (u.storeByteAccess c b).deviceLog = u.deviceLog := by
      intro u c b hp hc
      rw [State.storeByteAccess, State.noteDevice_of_main _ _ _ (by simp [hp, hc]), State.putByte_deviceLog]
    rw [hb _ _ _ (by simp) h3, hb _ _ _ (by simp) h2, hb _ _ _ (by simp) h1, hb _ _ _ rfl h0]

/-! ### Device bytes -/

/-- A byte that no device owns reads as the byte stored, or as the initial content. -/
theorem State.byteAt_of_main (s : State) (a : Word) (h : isDevice s.platform a = false) :
    s.byteAt a = (s.mem.read a.toNat).getD (Config.initialByte a.toNat) := by
  simp [State.byteAt, h]

/-- A load of a word that touches no device byte reads the word and changes nothing (R29). -/
theorem State.loadWordAccess_of_main (s : State) (a : Word) (h : (wordAddrs a).any (isDevice s.platform) = false) :
    s.loadWordAccess a = (s.wordAt a, s) := by
  have h' := h
  simp only [wordAddrs, List.any_cons, List.any_nil, Bool.or_false, Bool.or_eq_false_iff] at h'
  obtain ⟨h0, h1, h2, h3⟩ := h'
  unfold State.loadWordAccess
  split
  · rw [State.noteDevice_of_main _ _ _ h]
  · have hb : ∀ b, isDevice s.platform b = false → s.loadByteAccess b = (s.byteAt b, s) := by
      intro b hb
      rw [State.loadByteAccess, State.noteDevice_of_main _ _ _ (by simpa using hb)]
    simp only [hb a h0, hb _ h1, hb _ h2, hb _ h3, State.wordAt]

/-! ### The checked accesses -/

theorem State.memReadByte_cases (s : State) (a : Word) :
    (readable s.platform a = true ∧ s.memReadByte a = .ok (s.loadByteAccess a)) ∨
      (readable s.platform a = false ∧ s.memReadByte a = .raises .loadAccessFault) := by
  unfold State.memReadByte
  split
  · next h => exact .inl ⟨h, rfl⟩
  · next h => exact .inr ⟨by simpa using h, rfl⟩

theorem State.memReadWord_cases (s : State) (a : Word) :
    (misalignmentFaults s.platform a = true ∧ s.memReadWord a = .raises .loadAddressMisaligned) ∨
      (misalignmentFaults s.platform a = false ∧ (wordAddrs a).all (readable s.platform) = true ∧
        s.memReadWord a = .ok (s.loadWordAccess a)) ∨
      (misalignmentFaults s.platform a = false ∧ (wordAddrs a).all (readable s.platform) = false ∧
        s.memReadWord a = .raises .loadAccessFault) := by
  unfold State.memReadWord
  split
  · next h => exact .inl ⟨h, rfl⟩
  · next h =>
    split
    · next h2 => exact .inr (.inl ⟨by simpa using h, h2, rfl⟩)
    · next h2 => exact .inr (.inr ⟨by simpa using h, Bool.eq_false_iff.mpr h2, rfl⟩)

theorem State.memWriteByte_cases (s : State) (a : Word) (b : Byte) :
    (writable s.platform a = true ∧ s.memWriteByte a b = .ok (s.storeByteAccess a b)) ∨
      (writable s.platform a = false ∧ s.memWriteByte a b = .raises .storeAccessFault) := by
  unfold State.memWriteByte
  split
  · next h => exact .inl ⟨h, rfl⟩
  · next h => exact .inr ⟨by simpa using h, rfl⟩

theorem State.memWriteWord_cases (s : State) (a v : Word) :
    (misalignmentFaults s.platform a = true ∧ s.memWriteWord a v = .raises .storeAddressMisaligned) ∨
      (misalignmentFaults s.platform a = false ∧ (wordAddrs a).all (writable s.platform) = true ∧
        s.memWriteWord a v = .ok (s.storeWordAccess a v)) ∨
      (misalignmentFaults s.platform a = false ∧ (wordAddrs a).all (writable s.platform) = false ∧
        s.memWriteWord a v = .raises .storeAccessFault) := by
  unfold State.memWriteWord
  split
  · next h => exact .inl ⟨h, rfl⟩
  · next h =>
    split
    · next h2 => exact .inr (.inl ⟨by simpa using h, h2, rfl⟩)
    · next h2 => exact .inr (.inr ⟨by simpa using h, Bool.eq_false_iff.mpr h2, rfl⟩)

theorem State.fetch_cases (s : State) :
    (aligned4 s.pc = false ∧ s.fetch = .raises .instructionAddressMisaligned) ∨
      (aligned4 s.pc = true ∧ (wordAddrs s.pc).all (fetchable s.platform) = false ∧
        s.fetch = .raises .instructionAccessFault) ∨
      (aligned4 s.pc = true ∧ (wordAddrs s.pc).all (fetchable s.platform) = true ∧
        s.fetch = .ok (s.wordAt s.pc, s.noteDevice (.fetch s.pc.toNat) (wordAddrs s.pc))) := by
  unfold State.fetch
  split
  · next h =>
    split
    · next h2 => exact .inr (.inr ⟨h, h2, rfl⟩)
    · next h2 => exact .inr (.inl ⟨h, Bool.eq_false_iff.mpr h2, rfl⟩)
  · next h => exact .inl ⟨by simpa using h, rfl⟩

/-- Everything a step can do when it answers a next state: record one fault of the fetch or of the decoder, or run the
decoded instruction (R14). -/
theorem step_cases (s t : State) (h : step s = .next t) :
    s.fault = none ∧
      ((∃ c, s.fetch = .raises c ∧ t = s.raise c s.pc) ∨
        (∃ w u, s.fetch = .ok (w, u) ∧
          ((∃ why, decodeWord w = .illegal why ∧ t = u.raise .illegalInstruction w) ∨
            (∃ i, decodeWord w = .instr i ∧ exec i u = .next t)))) := by
  unfold step at h
  cases hf : s.fault with
  | some r => rw [hf] at h; exact absurd h (by simp)
  | none =>
    rw [hf] at h
    refine ⟨rfl, ?_⟩
    cases hg : s.fetch with
    | raises c =>
      simp only [hg, Host.Outcome.next.injEq] at h
      exact .inl ⟨c, rfl, h.symm⟩
    | ok p =>
      obtain ⟨w, u⟩ := p
      refine .inr ⟨w, u, rfl, ?_⟩
      simp only [hg] at h
      cases hd : decodeWord w with
      | illegal why =>
        simp only [hd, Host.Outcome.next.injEq] at h
        exact .inl ⟨why, rfl, h.symm⟩
      | instr i =>
        simp only [hd] at h
        exact .inr ⟨i, rfl, h⟩

/-- Everything an executed instruction can do, instruction by instruction: exec answers a next state, and this one. -/
theorem exec_cases (i : Instr) (s t : State) (h : exec i s = .next t) :
    (∃ rd rs1 rs2, i = .add rd rs1 rs2 ∧ t = s.retire rd (s.readReg rs1 + s.readReg rs2)) ∨
    (∃ rd rs1 imm, i = .addi rd rs1 imm ∧ t = s.retire rd (s.readReg rs1 + sext32 imm)) ∨
    (∃ rd imm, i = .lui rd imm ∧ t = s.retire rd (upperImm imm)) ∨
    (∃ rd rs1 imm, i = .lw rd rs1 imm ∧
      ((∃ v u, s.memReadWord (s.effectiveAddress rs1 imm) = .ok (v, u) ∧ t = u.retire rd v) ∨
       (∃ c, s.memReadWord (s.effectiveAddress rs1 imm) = .raises c ∧ t = s.raise c (s.effectiveAddress rs1 imm)))) ∨
    (∃ rd rs1 imm, i = .lbu rd rs1 imm ∧
      ((∃ b u, s.memReadByte (s.effectiveAddress rs1 imm) = .ok (b, u) ∧ t = u.retire rd (b.setWidth 32)) ∨
       (∃ c, s.memReadByte (s.effectiveAddress rs1 imm) = .raises c ∧ t = s.raise c (s.effectiveAddress rs1 imm)))) ∨
    (∃ rs2 rs1 imm, i = .sw rs2 rs1 imm ∧
      ((∃ u, s.memWriteWord (s.effectiveAddress rs1 imm) (s.readReg rs2) = .ok u ∧ t = u.advance) ∨
       (∃ c, s.memWriteWord (s.effectiveAddress rs1 imm) (s.readReg rs2) = .raises c ∧
         t = s.raise c (s.effectiveAddress rs1 imm)))) ∨
    (∃ rs2 rs1 imm, i = .sb rs2 rs1 imm ∧
      ((∃ u, s.memWriteByte (s.effectiveAddress rs1 imm) (byteOf (s.readReg rs2) 0) = .ok u ∧ t = u.advance) ∨
       (∃ c, s.memWriteByte (s.effectiveAddress rs1 imm) (byteOf (s.readReg rs2) 0) = .raises c ∧
         t = s.raise c (s.effectiveAddress rs1 imm)))) ∨
    (∃ rd rs1 imm, i = .jalr rd rs1 imm ∧
      t = (s.writeReg rd (s.pc + 4)).setPc (clearBit0 (s.effectiveAddress rs1 imm))) := by
  cases i with
  | add rd rs1 rs2 => cases h; simp
  | addi rd rs1 imm => cases h; simp
  | lui rd imm => cases h; simp
  | lw rd rs1 imm =>
    simp only [exec, execLw] at h
    split at h <;> cases h <;> simp [*]
  | lbu rd rs1 imm =>
    simp only [exec, execLbu] at h
    split at h <;> cases h <;> simp [*]
  | sw rs2 rs1 imm =>
    simp only [exec, execSw] at h
    split at h <;> cases h <;> simp [*]
  | sb rs2 rs1 imm =>
    simp only [exec, execSb] at h
    split at h <;> cases h <;> simp [*]
  | jalr rd rs1 imm => cases h; simp

/-- The arms of `exec`, one equation each. -/
theorem exec_add (rd rs1 rs2 : Reg) (s : State) : exec (.add rd rs1 rs2) s = execAdd rd rs1 rs2 s := rfl
theorem exec_addi (rd rs1 : Reg) (imm : Int) (s : State) : exec (.addi rd rs1 imm) s = execAddi rd rs1 imm s := rfl
theorem exec_lui (rd : Reg) (imm : Nat) (s : State) : exec (.lui rd imm) s = execLui rd imm s := rfl
theorem exec_lw (rd rs1 : Reg) (imm : Int) (s : State) : exec (.lw rd rs1 imm) s = execLw rd rs1 imm s := rfl
theorem exec_lbu (rd rs1 : Reg) (imm : Int) (s : State) : exec (.lbu rd rs1 imm) s = execLbu rd rs1 imm s := rfl
theorem exec_sw (rs2 rs1 : Reg) (imm : Int) (s : State) : exec (.sw rs2 rs1 imm) s = execSw rs2 rs1 imm s := rfl
theorem exec_sb (rs2 rs1 : Reg) (imm : Int) (s : State) : exec (.sb rs2 rs1 imm) s = execSb rs2 rs1 imm s := rfl
theorem exec_jalr (rd rs1 : Reg) (imm : Int) (s : State) : exec (.jalr rd rs1 imm) s = execJalr rd rs1 imm s := rfl

end Sys2Proof.Machine
end

