-- ==== Sys2Proof/Tests/Slice0.lean ====
section
/-! SUPPORT. Tests of single steps against the vectors of spec/95_test_vectors.md (each test names its vector), and one
witness for the hypotheses of each statement. -/

namespace Sys2Proof.Tests

open Sys2Proof.Machine Sys2Proof.Safety

/-! ### A small machine -/

/-- The state of a next state, or the given one where there is a stop. -/
def getNext (o : Host.Outcome State Fault Refusal) (d : State) : State :=
  match o with
  | .next s => s
  | .fault _ => d
  | .refused _ => d

/-- The outcome is a next state. -/
def isNext (o : Host.Outcome State Fault Refusal) : Bool :=
  match o with
  | .next _ => true
  | .fault _ => false
  | .refused _ => false

theorem eq_next (o : Host.Outcome State Fault Refusal) (d : State) (h : isNext o = true) : o = .next (getNext o d) := by
  cases o with
  | next s => rfl
  | fault r => cases h
  | refused r => cases h

/-- Plain memory at 0 to 0x1FFF and at the top of the address space, read-only memory at 0x3000 to 0x3FFF, a device at 0x8000 to
0x80FF and at 0x8202 to 0x82FF with plain memory between them; nothing at 0x2000 to 0x2FFF and at 0x5000. -/
def map : List Region :=
  [{ base := 0, size := 0x2000, kind := .main, r := true, w := true, x := true },
   { base := 0x3000, size := 0x1000, kind := .main, r := true, w := false, x := false },
   { base := 0x8000, size := 0x100, kind := .device, r := true, w := true, x := true },
   { base := 0xFFFFF000, size := 0x1000, kind := .main, r := true, w := true, x := true },
   { base := 0x8100, size := 0x102, kind := .main, r := true, w := true, x := true },
   { base := 0x8202, size := 0xFE, kind := .device, r := true, w := true, x := true }]

def plat (m : MisalignedWord) : Platform := { memMap := map, misalignedWord := m, resetPc := 0, haltPc := some 0x100 }

/-- The memory of section 2.4 of the vectors. -/
def image : List Host.Cell :=
  [(0x0FFC, 0xAA), (0x0FFD, 0xBB), (0x0FFE, 0xCC), (0x0FFF, 0xDD), (0x1000, 0x11), (0x1001, 0x22), (0x1002, 0x33),
   (0x1003, 0x44), (0x1004, 0x55), (0x1005, 0x66), (0x1006, 0x77), (0x1007, 0x88)]

/-- pc 0x100, the memory of section 2.4, the given registers. -/
def start (m : MisalignedWord) (regs : List (Reg × Word)) : State :=
  (regs.foldl (fun s q => s.writeReg q.1 q.2) (State.resetWith (plat m) (Vector.replicate 15 0) image)).setPc 0x100

/-- The state after one instruction. -/
def run (i : Instr) (s : State) : State := getNext (exec i s) s

/-- The state after one step with the word placed at the pc. -/
def runWord (w : Word) (s : State) : State := getNext (step (s.placeWord s.pc w)) s

/-- The bytes stored from an address on. -/
def bytes (s : State) (a : Nat) (n : Nat) : List (Option Byte) := (List.range n).map (fun k => s.mem.read (a + k))

/-! ### WellFormed -/

/-- An immediate outside -2048 to 2047 is refused (R56). -/
theorem test_wf_refuses_immediates :
    [Instr.addi 1 1 2048, .addi 1 1 (-2049), .lw 1 1 2048, .lbu 1 1 (-2049), .sw 1 1 2048, .sb 1 1 (-2049),
      .jalr 1 1 2048].map Instr.wf = [false, false, false, false, false, false, false] := by decide

/-- A LUI operand above 0xFFFFF is refused (R56). -/
theorem test_wf_refuses_upper : (Instr.lui 1 0x100000).wf = false ∧ (Instr.lui 1 0xFFFFF).wf = true := by decide

/-! ### Decoding: the words of the spec, bit by bit -/

/-- E1 and E8, and A7's word (all fields at 15). -/
theorem test_decode_add_jalr :
    decodeWord 0b00000000101000001000000100110011#32 = .instr (.add 2 1 10) ∧
    decodeWord 0x00F787B3 = .instr (.add 15 15 15) ∧
    decodeWord 0b00000000000000010000000011100111#32 = .instr (.jalr 1 2 0) ∧
    decodeWord 0xFFC100E7 = .instr (.jalr 1 2 (-4)) := by decide

/-- E2, I3, I4, the word 0x01000093 (inst[24] is an immediate bit), E3, U5. -/
theorem test_decode_addi_lui :
    decodeWord 0b00000000010100001000000110010011#32 = .instr (.addi 3 1 5) ∧
    decodeWord 0x80000113 = .instr (.addi 2 0 (-2048)) ∧ decodeWord 0x7FF00113 = .instr (.addi 2 0 2047) ∧
    decodeWord 0x01000093 = .instr (.addi 1 0 16) ∧
    decodeWord 0b00010010001101000101001000110111#32 = .instr (.lui 4 0x12345) ∧
    decodeWord 0x018800B7 = .instr (.lui 1 0x01880) := by decide

/-- E4, LW3, E5, LB3. -/
theorem test_decode_loads :
    decodeWord 0b00000000010000001010001010000011#32 = .instr (.lw 5 1 4) ∧
    decodeWord 0xFFC12283 = .instr (.lw 5 2 (-4)) ∧
    decodeWord 0b00000000000000001100001100000011#32 = .instr (.lbu 6 1 0) ∧
    decodeWord 0xFFF0C303 = .instr (.lbu 6 1 (-1)) := by decide

/-- E6, SW2, SW3, SW4, SW5, E7, SB2. -/
theorem test_decode_stores :
    decodeWord 0b00000000011100001010010000100011#32 = .instr (.sw 7 1 8) ∧
    decodeWord 0xFE712C23 = .instr (.sw 7 2 (-8)) ∧ decodeWord 0x0070A823 = .instr (.sw 7 1 16) ∧
    decodeWord 0x7E70AFA3 = .instr (.sw 7 1 2047) ∧ decodeWord 0x8070A023 = .instr (.sw 7 1 (-2048)) ∧
    decodeWord 0b00000000100000001000000000100011#32 = .instr (.sb 8 1 0) ∧
    decodeWord 0xFE808FA3 = .instr (.sb 8 1 (-1)) := by decide

/-- Section 2.7: words that name x16 to x31. -/
theorem test_decode_refuses_registers :
    [0x00208833#32, 0x00188133, 0x01F08133, 0x00100813, 0x00180093, 0x00001837, 0x00012803, 0x00084083, 0x01012023,
      0x00180023, 0x00010867].map decodeWord =
      List.replicate 11 (.illegal .noSuchRegister) := by decide

/-- Section 2.7: the other illegal words. -/
theorem test_decode_refuses_words :
    ([0x00000000#32, 0xFFFFFFFF, 0x00000001, 0x000110E7, 0x402081B3, 0x0020F1B3, 0x022081B3, 0x00312093, 0x00317093,
      0x00311093, 0x00001097, 0x00010083, 0x00011083].all illegalWord &&
     [0x00015083#32, 0x00111023, 0x000000EF, 0x00208063, 0x0FF0000F, 0x00000073, 0x00100073, 0x300110F3, 0x30200073,
      0x10500073].all illegalWord) = true := by decide

/-- The encoder gives E1 to E8's words. -/
theorem test_encode_source_examples :
    [Instr.add 2 1 10, .addi 3 1 5, .lui 4 0x12345, .lw 5 1 4, .lbu 6 1 0, .sw 7 1 8, .sb 8 1 0, .jalr 1 2 0].map encode =
      [0x00A08133, 0x00508193, 0x12345237, 0x0040A283, 0x0000C303, 0x0070A423, 0x00808023, 0x000100E7] := by decide

/-- E1's byte layout in memory: 33 81 A0 00; the next byte is left over. -/
theorem test_decode_bytes :
    decode [0x33, 0x81, 0xA0, 0x00, 0x77] = .instr (.add 2 1 10, [0x77]) ∧ decode [0x33, 0x81] = .illegal .truncated := by
  decide

/-- The opcode table's rows, decoded and run as the first instruction after reset. -/
theorem test_table_rows :
    [0x33, 0x13, 0x37, 0x2003, 0x4003, 0x2023, 0x23, 0x67].map (decodeTableWord 32) =
      [some (.add 0 0 0), some (.addi 0 0 0), some (.lui 0 0), some (.lw 0 0 0), some (.lbu 0 0 0), some (.sw 0 0 0),
        some (.sb 0 0 0), some (.jalr 0 0 0)] ∧
    ([0x33, 0x13, 0x37, 0x2003, 0x4003, 0x2023, 0x23].all fun w =>
      decide ((getNext (step (State.reset.withFetchWord 32 w)) State.reset).pc = 4)) = true := by decide

/-! ### One instruction -/

/-- A1, A3 -/
theorem test_add_overflow :
    (run (.add 3 1 2) (start .fault [(1, 0x7FFFFFFF), (2, 1)])).readReg 3 = 0x80000000 ∧
    (run (.add 3 1 2) (start .fault [(1, 0x80000000), (2, 0x80000000)])).readReg 3 = 0 := by decide

/-- A4: sources are read before rd is written. -/
theorem test_add_same_register :
    (run (.add 1 1 1) (start .fault [(1, 0x40000001)])).readReg 1 = 0x80000002 := by decide

/-- I2, I3 -/
theorem test_addi_negative :
    (run (.addi 1 1 (-1)) (start .fault [(1, 0x80000000)])).readReg 1 = 0x7FFFFFFF ∧
    (run (.addi 2 0 (-2048)) (start .fault [])).readReg 2 = 0xFFFFF800 := by decide

/-- I8: the pc wraps; x0 stays 0. -/
theorem test_addi_x0_pc_wraps :
    (run (.addi 0 0 0) ((start .fault []).setPc 0xFFFFFFFC)).pc = 0 ∧ (run (.addi 0 0 7) (start .fault [])).readReg 0 = 0 := by
  decide

/-- U2, U3 -/
theorem test_lui :
    (run (.lui 1 0xFFFFF) (start .fault [])).readReg 1 = 0xFFFFF000 ∧
    (run (.lui 15 0x80000) (start .fault [])).readReg 15 = 0x80000000 := by decide

/-- LW1 to LW4, one step from the word placed at the pc. -/
theorem test_lw :
    (runWord 0x0000A283 (start .fault [(1, 0x1000)])).readReg 5 = 0x44332211 ∧
    (runWord 0xFFC12283 (start .fault [(2, 0x1000)])).readReg 5 = 0xDDCCBBAA ∧
    (runWord 0x0000A083 (start .fault [(1, 0x1000)])).readReg 1 = 0x44332211 ∧
    (runWord 0x0000A083 (start .fault [(1, 0x1000)])).pc = 0x104 := by decide

/-- LW6 under both settings. -/
theorem test_lw_misaligned :
    (run (.lw 5 1 1) (start .bytewise [(1, 0x1000)])).readReg 5 = 0x55443322 ∧
    (run (.lw 5 1 1) (start .fault [(1, 0x1000)])).fault =
      some { cause := .loadAddressMisaligned, pc := 0x100, value := 0x1001 } ∧
    (run (.lw 5 1 1) (start .fault [(1, 0x1000), (5, 0x77)])).readReg 5 = 0x77 := by decide

/-- LB3, LB2 -/
theorem test_lbu :
    (run (.lbu 6 1 (-1)) (start .fault [(1, 0x1000)])).readReg 6 = 0x000000DD ∧
    (run (.lbu 6 1 3) (start .fault [(1, 0x1000)])).readReg 6 = 0x00000044 := by decide

/-- LB6, F4 -/
theorem test_load_access_fault :
    (run (.lbu 6 1 0) (start .fault [(1, 0x5000)])).fault =
      some { cause := .loadAccessFault, pc := 0x100, value := 0x5000 } ∧
    (run (.lw 5 1 0) (start .fault [(1, 0x5000), (5, 0x77)])).readReg 5 = 0x77 ∧
    (run (.lw 5 1 0) (start .fault [(1, 0x5000)])).pc = 0x100 := by decide

/-- SW2, and SW8 bytewise with its neighbours. -/
theorem test_sw :
    bytes (run (.sw 7 2 (-8)) (start .fault [(2, 0x1008), (7, 0xDEADBEEF)])) 0x1000 4 =
      [some 0xEF, some 0xBE, some 0xAD, some 0xDE] ∧
    bytes (run (.sw 7 1 2) (start .bytewise [(1, 0x1000), (7, 0xDEADBEEF)])) 0x1000 8 =
      [some 0x11, some 0x22, some 0xEF, some 0xBE, some 0xAD, some 0xDE, some 0x77, some 0x88] := by decide

/-- SW4 under `fault`, SW9: no byte is written. -/
theorem test_sw_faults :
    (run (.sw 7 1 2047) (start .fault [(1, 0x1000)])).fault =
      some { cause := .storeAddressMisaligned, pc := 0x100, value := 0x17FF } ∧
    (run (.sw 7 1 2) (start .bytewise [(1, 0x1FFC), (7, 0xDEADBEEF)])).fault =
      some { cause := .storeAccessFault, pc := 0x100, value := 0x1FFE } ∧
    bytes (run (.sw 7 1 2) (start .bytewise [(1, 0x1FFC), (7, 0xDEADBEEF)])) 0x1FFE 2 = [none, none] := by decide

/-- SB1, SB2 -/
theorem test_sb :
    bytes (run (.sb 8 1 1) (start .fault [(1, 0x1000), (8, 0x12345678)])) 0x1000 4 =
      [some 0x11, some 0x78, some 0x33, some 0x44] ∧
    bytes (run (.sb 8 1 (-1)) (start .fault [(1, 0x1000), (8, 0x12345678)])) 0x0FFE 3 =
      [some 0xCC, some 0x78, some 0x11] := by decide

/-- R28: what the record of device accesses gains, newest first, when two bytes of the word are a device's. -/
theorem test_device_word :
    (run (.lw 5 1 0) (start .fault [(1, 0x8200)])).deviceLog = [.load 0x8200 4] ∧
    (run (.lw 5 1 0) (start .bytewise [(1, 0x80FE)])).deviceLog = [.load 0x80FF 1, .load 0x80FE 1] ∧
    (run (.sw 7 1 0) (start .bytewise [(1, 0x80FE), (7, 0xDEADBEEF)])).deviceLog =
      [.store 0x80FF 1 0xBE, .store 0x80FE 1 0xEF] ∧
    bytes (run (.sw 7 1 0) (start .bytewise [(1, 0x80FE), (7, 0xDEADBEEF)])) 0x80FE 4 =
      [none, none, some 0xAD, some 0xDE] := by decide

/-- R112: every loaded byte is in memory, and nothing else. -/
theorem test_image :
    bytes (start .fault []) 0x0FFB 4 = [none, some 0xAA, some 0xBB, some 0xCC] ∧
    bytes (start .fault []) 0x1005 4 = [some 0x66, some 0x77, some 0x88, none] := by decide

/-- F6 -/
theorem test_sb_access_fault :
    (run (.sb 8 1 0) (start .fault [(1, 0x3000), (8, 1)])).fault =
      some { cause := .storeAccessFault, pc := 0x100, value := 0x3000 } := by decide

/-- J2, J10, J8 -/
theorem test_jalr :
    (run (.jalr 1 1 0) (start .fault [(1, 0x200)])).pc = 0x200 ∧
    (run (.jalr 1 1 0) (start .fault [(1, 0x200)])).readReg 1 = 0x104 ∧
    (run (.jalr 0 1 1) (start .fault [(1, 0xFFFFFFFF)])).pc = 0 ∧
    (run (.jalr 1 0 16) ((start .fault []).setPc 0xFFFFFFFC)).readReg 1 = 0 := by decide

/-- J6, then F2 -/
theorem test_jalr_bit1 :
    (run (.jalr 5 6 1) (start .fault [(6, 0x202)])).pc = 0x202 ∧
    (getNext (step (run (.jalr 5 6 1) (start .fault [(6, 0x202)]))) (start .fault [])).fault =
      some { cause := .instructionAddressMisaligned, pc := 0x202, value := 0x202 } := by decide

/-! ### The step's own faults -/

/-- F1, and F8: the record, then no step. -/
theorem test_illegal_then_no_step :
    (runWord 0 (start .fault [])).fault = some { cause := .illegalInstruction, pc := 0x100, value := 0 } ∧
    isNext (step (runWord 0 (start .fault []))) = false := by decide

/-- F3, F7 -/
theorem test_fetch_faults :
    (runWord 0x13 ((start .fault []).setPc 0x4000)).fault =
      some { cause := .instructionAccessFault, pc := 0x4000, value := 0x4000 } ∧
    (runWord 0x00208833 ((start .fault []).setPc 0x102)).fault =
      some { cause := .instructionAddressMisaligned, pc := 0x102, value := 0x102 } := by decide

/-- F5 under both settings: misalignment first (R98). -/
theorem test_priority :
    (run (.lw 5 1 1) (start .fault [(1, 0x5000)])).fault =
      some { cause := .loadAddressMisaligned, pc := 0x100, value := 0x5001 } ∧
    (run (.lw 5 1 1) (start .bytewise [(1, 0x5000)])).fault =
      some { cause := .loadAccessFault, pc := 0x100, value := 0x5001 } := by decide

/-- R90's codes. -/
theorem test_codes :
    [Cause.instructionAddressMisaligned, .instructionAccessFault, .illegalInstruction, .loadAddressMisaligned,
      .loadAccessFault, .storeAddressMisaligned, .storeAccessFault].map Cause.code = [0, 1, 2, 4, 5, 6, 7] := by decide

/-! ### Witnesses: the hypotheses of each statement can be met, at the edges of their ranges -/

theorem witness_AddWritesSum :
    ([0x00208833#32, 0x00188133, 0x01F08133].all fun w =>
      decide (w &&& 0xFE00707F = 0x00000033) && (w.getLsbD 24 || w.getLsbD 19 || w.getLsbD 11)) = true := by decide

theorem witness_AddiWritesSum :
    ([0x00100813#32, 0x00180093].all fun w =>
      decide (w &&& 0x0000707F = 0x00000013) && (w.getLsbD 19 || w.getLsbD 11)) = true ∧
    ∃ lo hi : Int, lo = -2048 ∧ hi = 2047 ∧ -2048 ≤ lo ∧ lo ≤ 2047 ∧ -2048 ≤ hi ∧ hi ≤ 2047 := by
  refine ⟨by decide, -2048, 2047, ?_⟩
  decide

theorem witness_LuiWritesUpper :
    (0x00001837#32 &&& 0x0000007F = 0x00000037 ∧ (0x00001837#32).getLsbD 11 = true) ∧
    ∃ imm : Nat, imm = 0xFFFFF ∧ imm ≤ 0xFFFFF := ⟨by decide, 0xFFFFF, by decide⟩

theorem witness_LwLoadsWord_words :
    ([0x00012803#32, 0x0008A083].all fun w =>
      decide (w &&& 0x0000707F = 0x00002003) && (w.getLsbD 19 || w.getLsbD 11)) = true := by decide

/-- Clauses of LW: granted aligned; granted misaligned, over the top of the address space; misaligned and faulting; a byte not
readable at the end of a region, aligned and misaligned. -/
theorem witness_LwLoadsWord_clauses :
    loadWordOk (plat .fault) 0x1FFC = true ∧ plainWord (plat .fault) 0x1FFC = true ∧
    loadWordOk (plat .bytewise) 0xFFFFFFFE = true ∧ loadWordOk (plat .fault) 0x8000 = true ∧
    isDevice (plat .fault) 0x8000 = true ∧
    (aligned4 0x1001 = false ∧ (plat .fault).misalignedWord = .fault) ∧
    (aligned4 0x2000 = true ∧ readable (plat .fault) (byteAddr 0x2000 0) = false) ∧
    ((plat .bytewise).misalignedWord = .bytewise ∧ readable (plat .bytewise) (byteAddr 0x1FFD 3) = false) := by decide

theorem witness_LbuLoadsByte :
    ([0x00084083#32, 0x00014803].all fun w =>
      decide (w &&& 0x0000707F = 0x00004003) && (w.getLsbD 19 || w.getLsbD 11)) = true ∧
    readable (plat .fault) 0x1FFF = true ∧ readable (plat .fault) 0x2000 = false ∧ readable (plat .fault) 0x80FF = true ∧
    isDevice (plat .fault) 0x80FF = true := by decide

theorem witness_SwStoresWord :
    ([0x01012023#32, 0x00182023].all fun w =>
      decide (w &&& 0x0000707F = 0x00002023) && (w.getLsbD 24 || w.getLsbD 19)) = true ∧
    storeWordOk (plat .fault) 0x1FFC = true ∧ storeWordOk (plat .bytewise) 0xFFFFFFFF = true ∧
    storeWordOk (plat .fault) 0x80FC = true ∧ isDevice (plat .fault) (byteAddr 0x80FC 3) = true ∧
    (aligned4 0x1FFE = false ∧ (plat .fault).misalignedWord = .fault) ∧
    (aligned4 0x3000 = true ∧ writable (plat .fault) (byteAddr 0x3000 0) = false) ∧
    ((plat .bytewise).misalignedWord = .bytewise ∧ writable (plat .bytewise) (byteAddr 0x1FFD 3) = false) := by decide

theorem witness_SbStoresByte :
    ([0x00180023#32, 0x01010023].all fun w =>
      decide (w &&& 0x0000707F = 0x00000023) && (w.getLsbD 24 || w.getLsbD 19)) = true ∧
    writable (plat .fault) 0x1FFF = true ∧ isDevice (plat .fault) 0x1FFF = false ∧
    writable (plat .fault) 0x8000 = true ∧ isDevice (plat .fault) 0x8000 = true ∧ writable (plat .fault) 0x3FFF = false := by
  decide

theorem witness_JalrJumpsAndLinks :
    ([0x000110E7#32, 0x00010867, 0x000800E7].all fun w =>
      decide (w &&& 0x0000007F = 0x00000067) &&
        (decide (w.extractLsb' 12 3 ≠ 0b000#3) || (w.getLsbD 19 || w.getLsbD 11))) = true ∧
    (start .fault [(2, 0x200)]).fault = none ∧
    (run (.jalr 1 2 2) (start .fault [(2, 0x200)])).pc.getLsbD 1 = true := by decide

theorem witness_X0IsHardwiredZero :
    ∃ (i : Instr) (rd : Reg) (s t : State), dest i = some rd ∧ exec i s = .next t :=
  ⟨.lw 5 1 0, 5, start .fault [(1, 0x5000)], _, rfl, eq_next _ (start .fault []) (by decide)⟩

theorem witness_OnlyNamedRegistersMatter :
    (5 : Reg) ∉ sources (.sw 7 1 0) ∧ dest (.sw 7 1 0) ≠ some 5 ∧ (15 : Reg) ∉ sources (.lw 5 1 0) ∧
      dest (.lw 5 1 0) ≠ some 15 := by decide

theorem witness_DecodeOfEncode :
    (Instr.addi 15 0 (-2048)).wf = true ∧ (Instr.sb 15 0 2047).wf = true ∧ (Instr.lui 15 0xFFFFF).wf = true := by decide

theorem witness_EncodeOfDecode :
    decodeWord 0x00A08133 = .instr (.add 2 1 10) ∧ decodeWord 0xFE808FA3 = .instr (.sb 8 1 (-1)) := by decide

theorem witness_OneLengthOnly :
    decode [0x33, 0x81, 0xA0, 0x00] = .instr (.add 2 1 10, []) ∧ (0#32).extractLsb' 0 2 ≠ 0b11#2 ∧
      (0xFFFFFFFE#32).extractLsb' 0 2 ≠ 0b11#2 := by decide

/-- A state whose pc holds the given word. -/
def ready (w : Word) (m : MisalignedWord) (regs : List (Reg × Word)) : State := (start m regs).placeWord 0x100 w

theorem witness_StepRunsDecodedInstruction :
    (ready 0x00A08133 .fault []).fault = none ∧ fetchOk (ready 0x00A08133 .fault []) = true ∧
    decodeWord ((ready 0x00A08133 .fault []).wordAt (ready 0x00A08133 .fault []).pc) = .instr (.add 2 1 10) ∧
    plainWord (ready 0x00A08133 .fault []).platform (ready 0x00A08133 .fault []).pc = true := by decide

theorem witness_NoStepAfterFault :
    (runWord 0 (start .fault [])).fault = some { cause := .illegalInstruction, pc := 0x100, value := 0 } := by decide

theorem witness_FetchFaultsInOrder :
    (start .fault []).fault = none ∧ aligned4 ((start .fault []).setPc 0x2002).pc = false ∧
    aligned4 ((start .fault []).setPc 0x2000).pc = true ∧
    fetchable (plat .fault) (byteAddr 0x2000 0) = false := by decide

theorem witness_UnlistedWordIsIllegal :
    (ready 0 .fault []).fault = none ∧ fetchOk (ready 0 .fault []) = true ∧
    (ready 0 .fault []).wordAt (ready 0 .fault []).pc = 0 ∧
    ([0xFF08787F#32, 0x0008787F, 0x0000087F, 0x0108707F].all fun m => decide (0#32 &&& m = 0)) = true := by decide

theorem witness_FaultsComeFromTheirCauses :
    ∃ (s t : State) (r : FaultRecord), step s = .next t ∧ t.fault = some r :=
  ⟨ready 0x0010A283 .fault [(1, 0x1000)], getNext (step (ready 0x0010A283 .fault [(1, 0x1000)])) (start .fault []),
    { cause := .loadAddressMisaligned, pc := 0x100, value := 0x1001 }, eq_next _ _ (by decide), by decide⟩

theorem witness_FaultsArePrecise : ∃ s t : State, step s = .next t ∧ t.fault ≠ none :=
  ⟨ready 0x00808023 .fault [(1, 0x3000)], getNext (step (ready 0x00808023 .fault [(1, 0x3000)])) (start .fault []),
    eq_next _ _ (by decide), by decide⟩

theorem witness_OnlyJalrLeavesSequence : ∃ s t : State, step s = .next t ∧ t.fault = none :=
  ⟨ready 0x00008067 .fault [(1, 0x200)], getNext (step (ready 0x00008067 .fault [(1, 0x200)])) (start .fault []),
    eq_next _ _ (by decide), by decide⟩

theorem witness_EndedRunSpins :
    runEnded (ready 0x00008067 .fault [(1, 0x100)]) = true ∧ fetchOk (ready 0x00008067 .fault [(1, 0x100)]) = true ∧
    plainWord (plat .fault) 0x100 = true ∧
    decodeWord ((ready 0x00008067 .fault [(1, 0x100)]).wordAt 0x100) = .instr (.jalr 0 1 0) ∧
    (ready 0x00008067 .fault [(1, 0x100)]).readReg 1 = (ready 0x00008067 .fault [(1, 0x100)]).pc := by decide

theorem witness_StepKeepsInvariant : ∃ s t : State, Inv s ∧ step s = .next t :=
  ⟨ready 0x0070A423 .fault [(1, 0x1000)], getNext (step (ready 0x0070A423 .fault [(1, 0x1000)])) (start .fault []),
    by decide, eq_next _ _ (by decide)⟩

theorem witness_ResetMeetsInvariant : platformOk (plat .fault) = true ∧ platformOk Config.resetPlatform = true := by decide

theorem witness_ResetEstablishesItsState :
    ∃ s : State, s = State.resetWith (plat .fault) (Vector.replicate 15 7) [(0, 0x33), (1, 0x81), (2, 0xA0), (3, 0x00)] ∧
      platformOk (plat .fault) = true ∧ plainWord (plat .fault) (plat .fault).resetPc = true ∧
      decodeWord (s.wordAt (plat .fault).resetPc) = .instr (.add 2 1 10) ∧
      ∀ c ∈ [(0, 0x33), (1, 0x81), (2, 0xA0), (3, (0x00 : Byte))], c.1 % 4294967296 ≠ 4294967295 :=
  ⟨_, rfl, by decide, by decide, by decide, by decide⟩

theorem witness_StepKeepsPlatform : ∃ s t : State, step s = .next t :=
  ⟨ready 0x0070A423 .fault [(1, 0x1000)], _, eq_next _ (start .fault []) (by decide)⟩

/-- A store into the read-only region, and one into the device. -/
theorem witness_UnwritableMemoryStays :
    (∃ s t : State, step s = .next t ∧ writable s.platform 0x3000 = false) ∧
    ∃ s t : State, step s = .next t ∧ isDevice s.platform 0x80FF = true :=
  ⟨⟨ready 0x00808023 .fault [(1, 0x3000)], _, eq_next _ (start .fault []) (by decide), by decide⟩,
    ⟨ready 0x00808023 .fault [(1, 0x80FF)], _, eq_next _ (start .fault []) (by decide), by decide⟩⟩

/-- SB2's store and SW1's. -/
theorem witness_OnlyStoresWriteMemory :
    (∃ s t : State, step s = .next t ∧ t.mem.read 0x0FFF ≠ s.mem.read 0x0FFF) ∧
    ∃ s t : State, step s = .next t ∧ t.mem.read 0x1003 ≠ s.mem.read 0x1003 :=
  ⟨⟨ready 0xFE808FA3 .fault [(1, 0x1000), (8, 0x78)],
      getNext (step (ready 0xFE808FA3 .fault [(1, 0x1000), (8, 0x78)])) (start .fault []), eq_next _ _ (by decide),
      by decide⟩,
    ⟨ready 0x0070A023 .fault [(1, 0x1000), (7, 0xDEADBEEF)],
      getNext (step (ready 0x0070A023 .fault [(1, 0x1000), (7, 0xDEADBEEF)])) (start .fault []), eq_next _ _ (by decide),
      by decide⟩⟩

/-- Both settings: aligned at the end of a region, misaligned across the top of the address space. -/
theorem witness_LoadReturnsStoredWord :
    (∃ s t : State, s.effectiveAddress 1 0 = 0x1FFC ∧ storeWordOk s.platform 0x1FFC = true ∧
      loadWordOk s.platform 0x1FFC = true ∧ plainWord s.platform 0x1FFC = true ∧ exec (.sw 7 1 0) s = .next t ∧
      t.effectiveAddress 1 0 = 0x1FFC) ∧
    ∃ s t : State, s.effectiveAddress 0 (-1) = 0xFFFFFFFF ∧ storeWordOk s.platform 0xFFFFFFFF = true ∧
      loadWordOk s.platform 0xFFFFFFFF = true ∧ plainWord s.platform 0xFFFFFFFF = true ∧
      exec (.sw 7 0 (-1)) s = .next t ∧ t.effectiveAddress 0 (-1) = 0xFFFFFFFF :=
  ⟨⟨start .fault [(1, 0x1FFC)], getNext (exec (.sw 7 1 0) (start .fault [(1, 0x1FFC)])) (start .fault []),
      by decide, by decide, by decide, by decide, eq_next _ _ (by decide), by decide⟩,
    ⟨start .bytewise [], getNext (exec (.sw 7 0 (-1)) (start .bytewise [])) (start .fault []),
      by decide, by decide, by decide, by decide, eq_next _ _ (by decide), by decide⟩⟩

/-- Byte 3 of the stored word, and a byte stored as byte 3 of a word. -/
theorem witness_MixedWidthIsLittleEndian :
    (∃ s t : State, s.effectiveAddress 1 0 = 0x1000 ∧ storeWordOk s.platform 0x1000 = true ∧
      plainWord s.platform 0x1000 = true ∧ readable s.platform (byteAddr 0x1000 3) = true ∧
      exec (.sw 7 1 0) s = .next t ∧ t.effectiveAddress 1 3 = byteAddr 0x1000 3) ∧
    ∃ s t : State, byteAddr 0x1000 3 = s.effectiveAddress 1 3 ∧ writable s.platform (byteAddr 0x1000 3) = true ∧
      loadWordOk s.platform 0x1000 = true ∧ plainWord s.platform 0x1000 = true ∧ exec (.sb 8 1 3) s = .next t ∧
      t.effectiveAddress 1 0 = 0x1000 :=
  ⟨⟨start .fault [(1, 0x1000)], getNext (exec (.sw 7 1 0) (start .fault [(1, 0x1000)])) (start .fault []),
      by decide, by decide, by decide, by decide, eq_next _ _ (by decide), by decide⟩,
    ⟨start .fault [(1, 0x1000)], getNext (exec (.sb 8 1 3) (start .fault [(1, 0x1000)])) (start .fault []),
      by decide, by decide, by decide, by decide, eq_next _ _ (by decide), by decide⟩⟩

theorem witness_StoredWordIsFetched :
    ∃ s t : State, s.effectiveAddress 1 0 = 0x1FFC ∧ aligned4 0x1FFC = true ∧ storeWordOk s.platform 0x1FFC = true ∧
      plainWord s.platform 0x1FFC = true ∧ (wordAddrs 0x1FFC).all (fetchable s.platform) = true ∧
      exec (.sw 7 1 0) s = .next t :=
  ⟨start .fault [(1, 0x1FFC)], getNext (exec (.sw 7 1 0) (start .fault [(1, 0x1FFC)])) (start .fault []),
    by decide, by decide, by decide, by decide, by decide, eq_next _ _ (by decide)⟩

theorem witness_AlignedAccessIgnoresSetting :
    wordAccessAligned (start .fault [(1, 0x1FFC)]) (.lw 5 1 0) = true ∧
    wordAccessAligned (start .fault [(1, 0x3000)]) (.sw 5 1 0) = true := by decide

theorem witness_DeviceBytesAreFree :
    (start .fault [(1, 0x8000)]).effectiveAddress 1 0 = 0x8000 ∧ readable (plat .fault) 0x8000 = true ∧
    writable (plat .fault) 0x8000 = true ∧ isDevice (plat .fault) 0x8000 = true := by decide

/-- Loads and stores alike: an aligned word and a misaligned one, all bytes a device's; an aligned word and a misaligned one of
which two bytes are a device's. -/
theorem witness_DeviceWordAtomicity :
    ([0x80FC#32, 0x8200].all fun a => loadWordOk (plat .fault) a && storeWordOk (plat .fault) a && aligned4 a) = true ∧
    ([0x8001#32, 0x80FE].all fun a => loadWordOk (plat .bytewise) a && storeWordOk (plat .bytewise) a && !aligned4 a) = true ∧
    ([0x80FC#32, 0x8001].all fun a => (wordAddrs a).all (isDevice (plat .fault))) = true ∧
    (wordAddrs 0x8200).map (isDevice (plat .fault)) = [false, false, true, true] ∧
    (wordAddrs 0x80FE).map (isDevice (plat .fault)) = [true, true, false, false] := by decide

end Sys2Proof.Tests
end

section
/-! PROOFS. R11 of spec/10_state.md: x0 is hardwired, and an instruction with destination x0 drops only the register
write. The argument: putting a destination's old value back undoes the register write of an instruction and nothing else. -/

namespace Sys2Proof.Machine

open Sys2Proof.Safety

/-! ### Writing a register over -/

/-- Writing a register's own value changes no state. -/
@[simp] theorem State.writeReg_readReg (s : State) (r : Reg) : s.writeReg r (s.readReg r) = s := by
  refine State.eq_of_fields _ _ (fun q => ?_) (by simp) (by simp) (by simp) (by simp) (by simp)
  rw [State.readReg_writeReg]
  split
  · next h => rw [h.1]
  · rfl

/-- Of two writes to one register the later holds. -/
@[simp] theorem State.writeReg_writeReg_same (s : State) (r : Reg) (v w : Word) :
    (s.writeReg r v).writeReg r w = s.writeReg r w := by
  refine State.eq_of_fields _ _ (fun q => ?_) (by simp) (by simp) (by simp) (by simp) (by simp)
  simp only [State.readReg_writeReg]
  split <;> rfl

theorem State.setPc_writeReg (s : State) (p : Word) (r : Reg) (v : Word) :
    (s.setPc p).writeReg r v = (s.writeReg r v).setPc p := by
  unfold State.writeReg; split <;> rfl

theorem State.advance_writeReg (s : State) (r : Reg) (v : Word) :
    s.advance.writeReg r v = (s.writeReg r v).advance := by
  simp [State.advance, State.setPc_writeReg]

/-- A fault leaves the registers, so that writing back an old value changes nothing (R100). -/
theorem State.raise_writeReg_readReg (s : State) (c : Cause) (info : Word) (r : Reg) :
    (s.raise c info).writeReg r (s.readReg r) = s.raise c info :=
  State.writeReg_readReg (s.raise c info) r

/-- Putting the old value of rd back after an instruction's end gives the end of the same instruction with rd = x0. `u` is
the state after the instruction's memory access, which leaves rd as it was in `s`. -/
theorem State.retire_writeReg_readReg {s u : State} {rd : Reg} (hu : u.readReg rd = s.readReg rd) (v : Word) :
    (u.retire rd v).writeReg rd (s.readReg rd) = u.retire 0 v := by
  simp [State.retire, State.advance_writeReg, ← hu]

/-! ### A load's memory access leaves the registers -/

theorem State.readReg_of_memReadByte {s u : State} {a : Word} {b : Byte} (h : s.memReadByte a = .ok (b, u)) (r : Reg) :
    u.readReg r = s.readReg r := by
  obtain ⟨-, hr⟩ | ⟨-, hr⟩ := State.memReadByte_cases s a
  · cases hr.symm.trans h
    exact State.readReg_loadByteAccess s a r
  · cases hr.symm.trans h

theorem State.readReg_of_memReadWord {s u : State} {a v : Word} (h : s.memReadWord a = .ok (v, u)) (r : Reg) :
    u.readReg r = s.readReg r := by
  obtain ⟨-, hr⟩ | ⟨-, -, hr⟩ | ⟨-, -, hr⟩ := State.memReadWord_cases s a
  · cases hr.symm.trans h
  · have hu : s.loadWordAccess a = (v, u) := Checked.ok.inj (hr.symm.trans h)
    rw [← State.readReg_loadWordAccess s a r, hu]
  · cases hr.symm.trans h

/-! ### The x0 form of an instruction -/

/-- R11: the x0 form of an instruction gives the same state, but with the old value of the destination register. -/
theorem exec_withDestX0 {i : Instr} {rd : Reg} {s t : State} (hd : dest i = some rd) (ht : exec i s = .next t) :
    exec (withDestX0 i) s = .next (t.writeReg rd (s.readReg rd)) := by
  cases i with
  | add | addi | lui =>
    cases hd; cases ht
    rw [State.retire_writeReg_readReg rfl]; rfl
  | lw =>
    cases hd
    rw [exec_lw, execLw] at ht
    split at ht
    · next hm =>
      cases ht
      simp only [withDestX0, exec_lw, execLw, hm, State.raise_writeReg_readReg]
    · next hm =>
      cases ht
      have hu := State.readReg_of_memReadWord hm rd
      simp only [withDestX0, exec_lw, execLw, hm, State.retire_writeReg_readReg hu]
  | lbu =>
    cases hd
    rw [exec_lbu, execLbu] at ht
    split at ht
    · next hm =>
      cases ht
      simp only [withDestX0, exec_lbu, execLbu, hm, State.raise_writeReg_readReg]
    · next hm =>
      cases ht
      have hu := State.readReg_of_memReadByte hm rd
      simp only [withDestX0, exec_lbu, execLbu, hm, State.retire_writeReg_readReg hu]
  | sw | sb => cases hd
  | jalr =>
    cases hd; cases ht
    rw [State.setPc_writeReg, State.writeReg_writeReg_same, State.writeReg_readReg]; rfl

/-- Settles O9: the two facts about x0 are `readReg_zero` and `writeReg_zero`, the x0 form is `exec_withDestX0`. -/
theorem x0IsHardwiredZero : Obligations.X0IsHardwiredZero :=
  ⟨fun s v => ⟨s.readReg_zero, s.writeReg_zero v⟩, fun _ _ _ _ hd ht => exec_withDestX0 hd ht⟩

end Sys2Proof.Machine
end

section
/-! PROOFS. The immediates and the decoder of spec/30_encoding.md: the fields of R46 to R48 as numbers, a word as the
instruction of the row it fits (R50), and the one length (R54). What a word decodes to is said once, for every row, by
`decodeWord_eq_instr_iff`. -/

namespace Sys2Proof

open Sys2Proof.Machine Sys2Proof.Safety

/-! ### Immediates (R46 to R48) -/

/-- Sign extension of a 12-bit field, through the number it stands for (R6). -/
theorem sext32_toInt (x : BitVec 12) : sext32 x.toInt = x.signExtend 32 := rfl

theorem immFits_iff (imm : Int) : immFits imm = true ↔ -2048 ≤ imm ∧ imm ≤ 2047 := by
  simp [immFits]

theorem toInt_neg_iff_getLsbD (x : BitVec 12) : x.toInt < 0 ↔ x.getLsbD 11 = true := by
  rw [← decide_eq_true_iff (p := _ < 0), ← BitVec.msb_eq_toInt, BitVec.msb_eq_getLsbD_last]

/-- The sign of the S immediate is inst[31] (R47). -/
theorem immSField_neg_iff (w : Word) : immSField w < 0 ↔ w.getLsbD 31 = true := by
  rw [immSField, toInt_neg_iff_getLsbD, BitVec.getLsbD_append]
  simp

/-- The sign of the I immediate is inst[31] (R46). -/
theorem immIField_neg_iff (w : Word) : immIField w < 0 ↔ w.getLsbD 31 = true := by
  rw [immIField, toInt_neg_iff_getLsbD]
  simp

/-- The U immediate's value keeps bits 31:12 of the word and clears the twelve below (R48). -/
theorem upperImm_immUField (w : Word) : upperImm (immUField w) = w &&& 0xFFFFF000 := by
  simp only [upperImm, immUField, BitVec.ofNat_toNat, BitVec.setWidth_eq]
  refine BitVec.eq_of_getLsbD_eq fun k hk => ?_
  simp only [BitVec.getLsbD_append, BitVec.getLsbD_and, BitVec.getLsbD_extractLsb']
  interval_cases k <;> simp

/-- The 20-bit field as a number (R48). -/
theorem immUField_eq_div (w : Word) : immUField w = w.toNat / 4096 := by
  have hw := w.isLt
  rw [immUField, BitVec.extractLsb'_toNat, Nat.shiftRight_eq_div_pow]
  omega

/-- Settles O11, field by field: the ranges are `fits_toInt`, the signs the two sign lemmas, and the U immediate is
`upperImm_immUField` and `immUField_eq_div`. -/
theorem immediatesReadTheirFields : Obligations.ImmediatesReadTheirFields := by
  intro w
  obtain ⟨hSlo, hShi⟩ := (immFits_iff (immSField w)).1 (fits_toInt _)
  obtain ⟨hIlo, hIhi⟩ := (immFits_iff (immIField w)).1 (fits_toInt _)
  exact ⟨sext32_toInt _, immSField_neg_iff w, hSlo, hShi, sext32_toInt _, hIlo, hIhi, immIField_neg_iff w,
    upperImm_immUField w, immUField_eq_div w⟩

/-! ### What a format's mask keeps of a word (R42 to R45, R49) -/

/-- Words put together from parts of the same widths are equal exactly when their parts are. -/
theorem bitVec_append_inj_iff {m n : Nat} {a c : BitVec m} {b d : BitVec n} : a ++ b = c ++ d ↔ a = c ∧ b = d := by
  refine ⟨fun h => ⟨?_, ?_⟩, fun ⟨ha, hb⟩ => by rw [ha, hb]⟩
  · simpa only [BitVec.extractLsb'_append_eq_left] using congrArg (BitVec.extractLsb' n m) h
  · simpa only [BitVec.extractLsb'_append_eq_right] using congrArg (BitVec.extractLsb' 0 n) h

theorem and_maskR (w : Word) :
    w &&& 0xFF08787F = funct7Field w ++ BitVec.ofBool (w.getLsbD 24) ++ 0#4 ++ BitVec.ofBool (w.getLsbD 19) ++ 0#4 ++
      funct3Field w ++ BitVec.ofBool (w.getLsbD 11) ++ 0#4 ++ opcodeField w := by
  refine BitVec.eq_of_getLsbD_eq fun k hk => ?_
  simp only [funct7Field, funct3Field, opcodeField, BitVec.getLsbD_and, BitVec.getLsbD_append,
    BitVec.getLsbD_extractLsb']
  interval_cases k <;> simp

theorem and_maskI (w : Word) :
    w &&& 0x0008787F = 0#12 ++ BitVec.ofBool (w.getLsbD 19) ++ 0#4 ++ funct3Field w ++
      BitVec.ofBool (w.getLsbD 11) ++ 0#4 ++ opcodeField w := by
  refine BitVec.eq_of_getLsbD_eq fun k hk => ?_
  simp only [funct3Field, opcodeField, BitVec.getLsbD_and, BitVec.getLsbD_append, BitVec.getLsbD_extractLsb']
  interval_cases k <;> simp

theorem and_maskS (w : Word) :
    w &&& 0x0108707F = 0#7 ++ BitVec.ofBool (w.getLsbD 24) ++ 0#4 ++ BitVec.ofBool (w.getLsbD 19) ++ 0#4 ++
      funct3Field w ++ 0#5 ++ opcodeField w := by
  refine BitVec.eq_of_getLsbD_eq fun k hk => ?_
  simp only [funct3Field, opcodeField, BitVec.getLsbD_and, BitVec.getLsbD_append, BitVec.getLsbD_extractLsb']
  interval_cases k <;> simp

theorem and_maskU (w : Word) :
    w &&& 0x0000087F = 0#20 ++ BitVec.ofBool (w.getLsbD 11) ++ 0#4 ++ opcodeField w := by
  refine BitVec.eq_of_getLsbD_eq fun k hk => ?_
  simp only [opcodeField, BitVec.getLsbD_and, BitVec.getLsbD_append, BitVec.getLsbD_extractLsb']
  interval_cases k <;> simp

/-- A word fits an R row exactly when its selecting fields are the row's and `decodeR` finds no register bit set. -/
theorem fitsR_iff (w : Word) (f7 : BitVec 7) (f3 : BitVec 3) (op : BitVec 7) :
    w &&& 0xFF08787F = f7 ++ BitVec.ofBool false ++ 0#4 ++ BitVec.ofBool false ++ 0#4 ++ f3 ++ BitVec.ofBool false ++
      0#4 ++ op ↔
      opcodeField w = op ∧ funct3Field w = f3 ∧ funct7Field w = f7 ∧
        (w.getLsbD 11 || w.getLsbD 19 || w.getLsbD 24) = false := by
  rw [and_maskR]
  simp only [bitVec_append_inj_iff, BitVec.ofBool_eq_iff_eq, Bool.or_eq_false_iff]
  tauto

/-- A word fits an I row exactly when its selecting fields are the row's and `decodeI` finds no register bit set. -/
theorem fitsI_iff (w : Word) (f3 : BitVec 3) (op : BitVec 7) :
    w &&& 0x0008787F = 0#12 ++ BitVec.ofBool false ++ 0#4 ++ f3 ++ BitVec.ofBool false ++ 0#4 ++ op ↔
      opcodeField w = op ∧ funct3Field w = f3 ∧ (w.getLsbD 11 || w.getLsbD 19) = false := by
  rw [and_maskI]
  simp only [bitVec_append_inj_iff, BitVec.ofBool_eq_iff_eq, Bool.or_eq_false_iff]
  tauto

/-- A word fits an S row exactly when its selecting fields are the row's and `decodeS` finds no register bit set. -/
theorem fitsS_iff (w : Word) (f3 : BitVec 3) (op : BitVec 7) :
    w &&& 0x0108707F = 0#7 ++ BitVec.ofBool false ++ 0#4 ++ BitVec.ofBool false ++ 0#4 ++ f3 ++ 0#5 ++ op ↔
      opcodeField w = op ∧ funct3Field w = f3 ∧ (w.getLsbD 19 || w.getLsbD 24) = false := by
  rw [and_maskS]
  simp only [bitVec_append_inj_iff, BitVec.ofBool_eq_iff_eq, Bool.or_eq_false_iff]
  tauto

/-- A word fits the U row exactly when its opcode is the row's and `decodeU` finds its register bit clear. -/
theorem fitsU_iff (w : Word) (op : BitVec 7) :
    w &&& 0x0000087F = 0#20 ++ BitVec.ofBool false ++ 0#4 ++ op ↔ opcodeField w = op ∧ w.getLsbD 11 = false := by
  rw [and_maskU]
  simp only [bitVec_append_inj_iff, BitVec.ofBool_eq_iff_eq]
  tauto

/-! ### What each format's decoder answers -/

theorem decodeR_eq_instr_iff {w : Word} {mk : Reg → Reg → Reg → Instr} {i : Instr} :
    decodeR w mk = .instr i ↔
      (w.getLsbD 11 || w.getLsbD 19 || w.getLsbD 24) = false ∧ mk (rdField w) (rs1Field w) (rs2Field w) = i := by
  unfold decodeR
  cases (w.getLsbD 11 || w.getLsbD 19 || w.getLsbD 24) <;> simp

theorem decodeI_eq_instr_iff {w : Word} {mk : Reg → Reg → Int → Instr} {i : Instr} :
    decodeI w mk = .instr i ↔
      (w.getLsbD 11 || w.getLsbD 19) = false ∧ mk (rdField w) (rs1Field w) (immIField w) = i := by
  unfold decodeI
  cases (w.getLsbD 11 || w.getLsbD 19) <;> simp

theorem decodeS_eq_instr_iff {w : Word} {mk : Reg → Reg → Int → Instr} {i : Instr} :
    decodeS w mk = .instr i ↔
      (w.getLsbD 19 || w.getLsbD 24) = false ∧ mk (rs2Field w) (rs1Field w) (immSField w) = i := by
  unfold decodeS
  cases (w.getLsbD 19 || w.getLsbD 24) <;> simp

theorem decodeU_eq_instr_iff {w : Word} {mk : Reg → Nat → Instr} {i : Instr} :
    decodeU w mk = .instr i ↔ w.getLsbD 11 = false ∧ mk (rdField w) (immUField w) = i := by
  unfold decodeU
  cases w.getLsbD 11 <;> simp

/-! ### Decoding, row by row (R50) -/

/-- The instruction of the same row whose operands the fields of `w` hold (R41, R46 to R48). -/
def Instr.withFieldsOf (w : Word) : Instr → Instr
  | .add _ _ _ => .add (rdField w) (rs1Field w) (rs2Field w)
  | .addi _ _ _ => .addi (rdField w) (rs1Field w) (immIField w)
  | .lui _ _ => .lui (rdField w) (immUField w)
  | .lw _ _ _ => .lw (rdField w) (rs1Field w) (immIField w)
  | .lbu _ _ _ => .lbu (rdField w) (rs1Field w) (immIField w)
  | .sw _ _ _ => .sw (rs2Field w) (rs1Field w) (immSField w)
  | .sb _ _ _ => .sb (rs2Field w) (rs1Field w) (immSField w)
  | .jalr _ _ _ => .jalr (rdField w) (rs1Field w) (immIField w)

/-- A word that fits an instruction's row decodes to that row's instruction, its operands read from the word's fields. -/
theorem decodeWord_of_fits {w : Word} (i : Instr) (h : w &&& rowMask i = rowMatch i) :
    decodeWord w = .instr (i.withFieldsOf w) := by
  cases i with
  | add =>
    obtain ⟨hop, hf3, hf7, hz⟩ := (fitsR_iff w 0b0000000 0b000 0b0110011).1 h
    simpa [decodeWord, Instr.withFieldsOf, hop, hf3, hf7] using decodeR_eq_instr_iff.2 ⟨hz, rfl⟩
  | addi =>
    obtain ⟨hop, hf3, hz⟩ := (fitsI_iff w 0b000 0b0010011).1 h
    simpa [decodeWord, Instr.withFieldsOf, hop, hf3] using decodeI_eq_instr_iff.2 ⟨hz, rfl⟩
  | lui =>
    obtain ⟨hop, hz⟩ := (fitsU_iff w 0b0110111).1 h
    simpa [decodeWord, Instr.withFieldsOf, hop] using decodeU_eq_instr_iff.2 ⟨hz, rfl⟩
  | lw =>
    obtain ⟨hop, hf3, hz⟩ := (fitsI_iff w 0b010 0b0000011).1 h
    simpa [decodeWord, Instr.withFieldsOf, hop, hf3] using decodeI_eq_instr_iff.2 ⟨hz, rfl⟩
  | lbu =>
    obtain ⟨hop, hf3, hz⟩ := (fitsI_iff w 0b100 0b0000011).1 h
    simpa [decodeWord, Instr.withFieldsOf, hop, hf3] using decodeI_eq_instr_iff.2 ⟨hz, rfl⟩
  | sw =>
    obtain ⟨hop, hf3, hz⟩ := (fitsS_iff w 0b010 0b0100011).1 h
    simpa [decodeWord, Instr.withFieldsOf, hop, hf3] using decodeS_eq_instr_iff.2 ⟨hz, rfl⟩
  | sb =>
    obtain ⟨hop, hf3, hz⟩ := (fitsS_iff w 0b000 0b0100011).1 h
    simpa [decodeWord, Instr.withFieldsOf, hop, hf3] using decodeS_eq_instr_iff.2 ⟨hz, rfl⟩
  | jalr =>
    obtain ⟨hop, hf3, hz⟩ := (fitsI_iff w 0b000 0b1100111).1 h
    simpa [decodeWord, Instr.withFieldsOf, hop, hf3] using decodeI_eq_instr_iff.2 ⟨hz, rfl⟩

/-- A word that decodes to an instruction fits the instruction's row. The bullets follow `decodeWord`'s own order: add, addi,
lui, lw, lbu, sw, sb, jalr. -/
theorem fits_of_decodeWord {w : Word} {i : Instr} (h : decodeWord w = .instr i) : w &&& rowMask i = rowMatch i := by
  unfold decodeWord at h
  split_ifs at h with hop hf3 hf7 hop hf3 hop hop hf3 hf3 hop hf3 hf3 hop hf3
  · obtain ⟨hz, rfl⟩ := decodeR_eq_instr_iff.1 h
    exact (fitsR_iff w _ _ _).2 ⟨hop, hf3, hf7, hz⟩
  · obtain ⟨hz, rfl⟩ := decodeI_eq_instr_iff.1 h
    exact (fitsI_iff w _ _).2 ⟨hop, hf3, hz⟩
  · obtain ⟨hz, rfl⟩ := decodeU_eq_instr_iff.1 h
    exact (fitsU_iff w _).2 ⟨hop, hz⟩
  · obtain ⟨hz, rfl⟩ := decodeI_eq_instr_iff.1 h
    exact (fitsI_iff w _ _).2 ⟨hop, hf3, hz⟩
  · obtain ⟨hz, rfl⟩ := decodeI_eq_instr_iff.1 h
    exact (fitsI_iff w _ _).2 ⟨hop, hf3, hz⟩
  · obtain ⟨hz, rfl⟩ := decodeS_eq_instr_iff.1 h
    exact (fitsS_iff w _ _).2 ⟨hop, hf3, hz⟩
  · obtain ⟨hz, rfl⟩ := decodeS_eq_instr_iff.1 h
    exact (fitsS_iff w _ _).2 ⟨hop, hf3, hz⟩
  · obtain ⟨hz, rfl⟩ := decodeI_eq_instr_iff.1 h
    exact (fitsI_iff w _ _).2 ⟨hop, hf3, hz⟩

/-- The decoder, whole: a word decodes to `i` exactly when it fits the row of `i` and its fields hold the operands of `i`. -/
theorem decodeWord_eq_instr_iff {w : Word} {i : Instr} :
    decodeWord w = .instr i ↔ w &&& rowMask i = rowMatch i ∧ i.withFieldsOf w = i := by
  constructor
  · intro h
    have hfit := fits_of_decodeWord h
    exact ⟨hfit, Decoded.instr.inj ((decodeWord_of_fits i hfit).symm.trans h)⟩
  · rintro ⟨hfit, hi⟩
    rw [decodeWord_of_fits i hfit, hi]

/-- Settles O12: `fits_of_decodeWord` one way; the other way `decodeWord_of_fits`, for an instruction of the row that has
whatever operands. -/
theorem decodeIsTheOpcodeMap : Obligations.DecodeIsTheOpcodeMap := by
  intro w
  refine ⟨?add, ?addi, ?lui, ?lw, ?lbu, ?sw, ?sb, ?jalr⟩
  case add => exact ⟨fun ⟨_, _, _, h⟩ => fits_of_decodeWord h,
      fun h => ⟨_, _, _, decodeWord_of_fits (.add 0 0 0) h⟩⟩
  case addi => exact ⟨fun ⟨_, _, _, h⟩ => fits_of_decodeWord h,
      fun h => ⟨_, _, _, decodeWord_of_fits (.addi 0 0 0) h⟩⟩
  case lui => exact ⟨fun ⟨_, _, h⟩ => fits_of_decodeWord h,
      fun h => ⟨_, _, decodeWord_of_fits (.lui 0 0) h⟩⟩
  case lw => exact ⟨fun ⟨_, _, _, h⟩ => fits_of_decodeWord h,
      fun h => ⟨_, _, _, decodeWord_of_fits (.lw 0 0 0) h⟩⟩
  case lbu => exact ⟨fun ⟨_, _, _, h⟩ => fits_of_decodeWord h,
      fun h => ⟨_, _, _, decodeWord_of_fits (.lbu 0 0 0) h⟩⟩
  case sw => exact ⟨fun ⟨_, _, _, h⟩ => fits_of_decodeWord h,
      fun h => ⟨_, _, _, decodeWord_of_fits (.sw 0 0 0) h⟩⟩
  case sb => exact ⟨fun ⟨_, _, _, h⟩ => fits_of_decodeWord h,
      fun h => ⟨_, _, _, decodeWord_of_fits (.sb 0 0 0) h⟩⟩
  case jalr => exact ⟨fun ⟨_, _, _, h⟩ => fits_of_decodeWord h,
      fun h => ⟨_, _, _, decodeWord_of_fits (.jalr 0 0 0) h⟩⟩

/-! ### One length (R54) -/

theorem illegalWord_iff (w : Word) : illegalWord w = true ↔ ∀ i, decodeWord w ≠ .instr i := by
  unfold illegalWord
  cases decodeWord w <;> simp

/-- A field that a mask selects whole is the field of the masked word. -/
theorem extractLsb'_of_masked {w m v : Word} (h : w &&& m = v) (start len : Nat)
    (hm : m.extractLsb' start len = BitVec.allOnes len) : w.extractLsb' start len = v.extractLsb' start len := by
  rw [← h, BitVec.extractLsb'_and, hm, BitVec.and_allOnes]

/-- Every row selects the low two bits of a word, and has them 11 (R50, R54). -/
theorem rowMask_rowMatch_low (i : Instr) :
    (rowMask i).extractLsb' 0 2 = BitVec.allOnes 2 ∧ (rowMatch i).extractLsb' 0 2 = 0b11#2 := by
  cases i <;> simp only [rowMask, rowMatch] <;> decide

theorem low_bits_of_decodeWord {w : Word} {i : Instr} (h : decodeWord w = .instr i) : w.extractLsb' 0 2 = 0b11#2 := by
  obtain ⟨hmask, hmatch⟩ := rowMask_rowMatch_low i
  rw [extractLsb'_of_masked (fits_of_decodeWord h) 0 2 hmask, hmatch]

/-- Decoding a list of bytes takes the four bytes of one legal word (R40). -/
theorem decode_eq_instr_iff {bytes rest : List Byte} {i : Instr} :
    decode bytes = .instr (i, rest) ↔
      ∃ b0 b1 b2 b3, bytes = b0 :: b1 :: b2 :: b3 :: rest ∧ decodeWord (leWord b0 b1 b2 b3) = .instr i := by
  match bytes with
  | [] | [_] | [_, _] | [_, _, _] => simp [decode]
  | b0 :: b1 :: b2 :: b3 :: tail =>
    cases hw : decodeWord (leWord b0 b1 b2 b3) <;> simp [decode, hw, and_comm]

/-- Settles O15: the length is `decode_eq_instr_iff`, the low bits are `low_bits_of_decodeWord`. -/
theorem oneLengthOnly : Obligations.OneLengthOnly := by
  refine ⟨fun bytes rest i h => ?_, fun w hlow => ?_⟩
  · obtain ⟨b0, b1, b2, b3, rfl, -⟩ := decode_eq_instr_iff.1 h
    simp
  · exact (illegalWord_iff w).2 fun i h => hlow (low_bits_of_decodeWord h)

end Sys2Proof
end

section
/-! PROOFS. The integer computational instructions of spec/40_integer_computational.md. The word of an instruction decodes
to it: it fits its row, and its fields hold its operands. A word that has a row's selecting fields and a register bit set
is illegal, because those fields single out the row. What ADD, ADDI and LUI do to a state is `State.retire`. -/

namespace Sys2Proof

open Sys2Proof.Machine Sys2Proof.Safety

/-! ### The operand fields of an encoded word (R41 to R48) -/

theorem operands_encodeR (f7 : BitVec 7) (r2 r1 rd : Reg) (f3 : BitVec 3) (op : BitVec 7) :
    rdField (encodeR f7 r2 r1 f3 rd op) = rd ∧ rs1Field (encodeR f7 r2 r1 f3 rd op) = r1 ∧
      rs2Field (encodeR f7 r2 r1 f3 rd op) = r2 := by
  simp (disch := decide) only [rdField, rs1Field, rs2Field, encodeR, BitVec.extractLsb'_append_eq_of_add_le,
    BitVec.extractLsb'_append_eq_of_le]
  exact ⟨regBits_low rd, regBits_low r1, regBits_low r2⟩

theorem operands_encodeI (imm : BitVec 12) (r1 rd : Reg) (f3 : BitVec 3) (op : BitVec 7) :
    rdField (encodeI imm r1 f3 rd op) = rd ∧ rs1Field (encodeI imm r1 f3 rd op) = r1 ∧
      immIField (encodeI imm r1 f3 rd op) = imm.toInt := by
  simp (disch := decide) only [rdField, rs1Field, immIField, encodeI, BitVec.extractLsb'_append_eq_of_add_le,
    BitVec.extractLsb'_append_eq_of_le]
  exact ⟨regBits_low rd, regBits_low r1, congrArg BitVec.toInt BitVec.extractLsb'_eq_self⟩

theorem operands_encodeS (imm : BitVec 12) (r2 r1 : Reg) (f3 : BitVec 3) (op : BitVec 7) :
    rs2Field (encodeS imm r2 r1 f3 op) = r2 ∧ rs1Field (encodeS imm r2 r1 f3 op) = r1 ∧
      immSField (encodeS imm r2 r1 f3 op) = imm.toInt := by
  have hparts : imm.extractLsb' 5 7 ++ imm.extractLsb' 0 5 = imm :=
    (BitVec.extractLsb'_append_extractLsb'_eq_extractLsb' rfl).trans BitVec.extractLsb'_eq_self
  simp (disch := decide) only [rs2Field, rs1Field, immSField, encodeS, BitVec.extractLsb'_append_eq_of_add_le,
    BitVec.extractLsb'_append_eq_of_le, Nat.reduceSub, BitVec.extractLsb'_eq_self, hparts, and_true]
  exact ⟨regBits_low r2, regBits_low r1⟩

theorem operands_encodeU (imm : BitVec 20) (rd : Reg) (op : BitVec 7) :
    rdField (encodeU imm rd op) = rd ∧ immUField (encodeU imm rd op) = imm.toNat := by
  simp (disch := decide) only [rdField, immUField, encodeU, BitVec.extractLsb'_append_eq_of_add_le,
    BitVec.extractLsb'_append_eq_of_le]
  exact ⟨regBits_low rd, congrArg BitVec.toNat BitVec.extractLsb'_eq_self⟩

/-! ### The word of an instruction decodes to it (R50) -/

/-- The word of an instruction fits its row, whatever the operands are. -/
theorem encode_fits (i : Instr) : encode i &&& rowMask i = rowMatch i := by
  cases i with
  | add => exact Laws.EncodingRow.add _ _ _
  | addi => exact Laws.EncodingRow.addi _ _ _
  | lui => exact Laws.EncodingRow.lui _ _
  | lw => exact Laws.EncodingRow.lw _ _ _
  | lbu => exact Laws.EncodingRow.lbu _ _ _
  | sw => exact Laws.EncodingRow.sw _ _ _
  | sb => exact Laws.EncodingRow.sb _ _ _
  | jalr => exact Laws.EncodingRow.jalr _ _ _

/-- LUI's operand in range is read back from its field (R48, R56). -/
theorem toNat_ofNat_of_upperFits {imm : Nat} (h : upperFits imm = true) : (BitVec.ofNat 20 imm).toNat = imm := by
  rw [upperFits, decide_eq_true_eq] at h
  rw [BitVec.toNat_ofNat, Nat.mod_eq_of_lt (by omega)]

/-- The fields of a well-formed instruction's word hold its operands. -/
theorem withFieldsOf_encode {i : Instr} (h : i.wf = true) : i.withFieldsOf (encode i) = i := by
  cases i with
  | add => simp only [Instr.withFieldsOf, encode, operands_encodeR]
  | lui => simp only [Instr.withFieldsOf, encode, operands_encodeU, toNat_ofNat_of_upperFits h]
  | addi | lw | lbu | jalr =>
    simp only [Instr.withFieldsOf, encode, operands_encodeI, toInt_ofInt_of_fits _ h]
  | sw | sb =>
    simp only [Instr.withFieldsOf, encode, operands_encodeS, toInt_ofInt_of_fits _ h]

/-- Decoding the word of a well-formed instruction gives the instruction. -/
theorem decodeWord_encode {i : Instr} (h : i.wf = true) : decodeWord (encode i) = .instr i :=
  decodeWord_eq_instr_iff.2 ⟨encode_fits i, withFieldsOf_encode h⟩

/-! ### A row's selecting fields with a register bit set (R49, R51) -/

/-- The selecting bits of the instruction's row: the opcode, and the funct3 and funct7 that its format has (R42 to R45).
`rowMask` selects these and the must-be-zero register bits. -/
def rowSelect : Instr → Word
  | .add _ _ _ => 0xFE00707F
  | .lui _ _ => 0x0000007F
  | .addi _ _ _ | .lw _ _ _ | .lbu _ _ _ | .sw _ _ _ | .sb _ _ _ | .jalr _ _ _ => 0x0000707F

theorem rowMask_and_rowSelect (i : Instr) : rowMask i &&& rowSelect i = rowSelect i := by
  cases i <;> simp only [rowMask, rowSelect] <;> decide

theorem rowMatch_and_rowSelect (i : Instr) : rowMatch i &&& rowSelect i = rowMatch i := by
  cases i <;> simp only [rowMatch, rowSelect] <;> decide

/-- Two rows whose selecting fields agree are one row: the opcode map of R50 read two rows at a time. -/
theorem rowMask_eq_of_rowMatch_agree {i j : Instr} (h : rowMatch i &&& rowSelect j = rowMatch j &&& rowSelect i) :
    rowMask i = rowMask j ∧ rowMatch i = rowMatch j := by
  cases i <;> cases j <;> simp only [rowMask, rowMatch, rowSelect] at h ⊢ <;> revert h <;> decide

/-- A word with the selecting fields of the row of `i` decodes, if at all, to an instruction of that row. -/
theorem fits_of_decodeWord_of_select {w : Word} {i j : Instr} (hsel : w &&& rowSelect i = rowMatch i)
    (hj : decodeWord w = .instr j) : w &&& rowMask i = rowMatch i := by
  have hfit := fits_of_decodeWord hj
  have hselj : w &&& rowSelect j = rowMatch j := by
    rw [← rowMask_and_rowSelect, ← BitVec.and_assoc, hfit, rowMatch_and_rowSelect]
  have hagree : rowMatch i &&& rowSelect j = rowMatch j &&& rowSelect i := by
    rw [← hsel, ← hselj, BitVec.and_assoc, BitVec.and_assoc, BitVec.and_comm (rowSelect i)]
  obtain ⟨hmask, hmatch⟩ := rowMask_eq_of_rowMatch_agree hagree
  rw [hmask, hmatch, hfit]

/-- R49: a word with the selecting fields of the row of `i` and a must-be-zero bit `k` of that row set is illegal. -/
theorem illegalWord_of_select {w : Word} (i : Instr) (k : Nat) (hsel : w &&& rowSelect i = rowMatch i)
    (hmask : (rowMask i).getLsbD k = true) (hmatch : (rowMatch i).getLsbD k = false) (hk : w.getLsbD k = true) :
    illegalWord w = true := by
  refine (illegalWord_iff w).2 fun j hj => ?_
  have hbit := getLsbD_of_masked w _ _ (fits_of_decodeWord_of_select hsel hj) k hmask
  rw [hk, hmatch] at hbit
  cases hbit

end Sys2Proof

namespace Sys2Proof.Machine

open Sys2Proof.Safety

/-! ### Executing ADD, ADDI and LUI (R60 to R63) -/

/-- The immediate's 32-bit pattern is its 12-bit field sign-extended (R6, R46). -/
theorem sext32_eq_signExtend {imm : Int} (h : immFits imm = true) :
    sext32 imm = (BitVec.ofInt 12 imm).signExtend 32 := by
  rw [← sext32_toInt, toInt_ofInt_of_fits imm h]

/-- The operand above twelve zero bits is the operand times 4096 (R48, R62). -/
theorem upperImm_eq_mul (imm : Nat) : upperImm imm = BitVec.ofNat 32 (imm * 4096) := by
  refine BitVec.eq_of_toNat_eq ?_
  rw [upperImm, BitVec.toNat_append, BitVec.toNat_ofNat, BitVec.toNat_ofNat, BitVec.toNat_ofNat, Nat.zero_mod,
    Nat.or_zero, Nat.shiftLeft_eq]
  omega

theorem exec_add_eq_retire (rd rs1 rs2 : Reg) (s : State) :
    exec (.add rd rs1 rs2) s = .next (s.retire rd (s.readReg rs1 + s.readReg rs2)) := by
  rw [exec_add, execAdd, add32_eq]

theorem exec_addi_eq_retire (rd rs1 : Reg) {imm : Int} (h : immFits imm = true) (s : State) :
    exec (.addi rd rs1 imm) s = .next (s.retire rd (s.readReg rs1 + (BitVec.ofInt 12 imm).signExtend 32)) := by
  rw [exec_addi, execAddi, add32_eq, sext32_eq_signExtend h]

theorem exec_lui_eq_retire (rd : Reg) (imm : Nat) (s : State) :
    exec (.lui rd imm) s = .next (s.retire rd (BitVec.ofNat 32 (imm * 4096))) := by
  rw [exec_lui, execLui, upperImm_eq_mul]

/-- The end of an instruction with a result writes rd, advances the pc by 4 and changes nothing else (R11, R15). -/
theorem State.retire_effect (s : State) (rd : Reg) (v : Word) :
    writesReg rd v s (s.retire rd v) ∧ (s.retire rd v).pc = s.pc + 4 ∧ keepsRest s (s.retire rd v) :=
  ⟨fun r => s.readReg_retire rd r v, s.retire_pc rd v, s.retire_mem rd v, s.retire_fault rd v, s.retire_platform rd v,
    s.retire_deviceLog rd v⟩

/-- Settles O1: the register bits by `illegalWord_of_select`, the word by `decodeWord_encode`, the sum and the frame by
`State.retire_effect`. -/
theorem addWritesSum : Obligations.AddWritesSum := by
  refine ⟨fun w hsel hbits => ?_, fun rd rs1 rs2 => ⟨?_, fun s => ?_⟩⟩
  · simp only [Bool.or_eq_true] at hbits
    obtain (h24 | h19) | h11 := hbits
    · exact illegalWord_of_select (.add 0 0 0) 24 hsel rfl rfl h24
    · exact illegalWord_of_select (.add 0 0 0) 19 hsel rfl rfl h19
    · exact illegalWord_of_select (.add 0 0 0) 11 hsel rfl rfl h11
  · exact decodeWord_encode (i := .add rd rs1 rs2) rfl
  · exact ⟨_, exec_add_eq_retire rd rs1 rs2 s, State.retire_effect s rd _⟩

/-- Settles O2, as O1; the second summand is `sext32_eq_signExtend`. -/
theorem addiWritesSum : Obligations.AddiWritesSum := by
  refine ⟨fun w hsel hbits => ?_, fun rd rs1 imm hlo hhi => ?_⟩
  · simp only [Bool.or_eq_true] at hbits
    obtain h19 | h11 := hbits
    · exact illegalWord_of_select (.addi 0 0 0) 19 hsel rfl rfl h19
    · exact illegalWord_of_select (.addi 0 0 0) 11 hsel rfl rfl h11
  · have himm : immFits imm = true := (immFits_iff imm).2 ⟨hlo, hhi⟩
    exact ⟨decodeWord_encode (i := .addi rd rs1 imm) himm, fun s =>
      ⟨_, exec_addi_eq_retire rd rs1 himm s, State.retire_effect s rd _⟩⟩

/-- Settles O3, as O1; the value is `upperImm_eq_mul`. -/
theorem luiWritesUpper : Obligations.LuiWritesUpper := by
  refine ⟨fun w hsel h11 => illegalWord_of_select (.lui 0 0) 11 hsel rfl rfl h11, fun rd imm himm => ?_⟩
  exact ⟨decodeWord_encode (i := .lui rd imm) (decide_eq_true himm), fun s =>
    ⟨_, exec_lui_eq_retire rd imm s, State.retire_effect s rd _⟩⟩

end Sys2Proof.Machine
end

section
/-! PROOFS. The loads and the word store of spec/41_load_store.md. The checks of an access (R22, R23, R25) are turned into
the clauses of the statements; a granted access is followed byte by byte, byte `k` of a word at `byteAddr a k`; the end of
the instruction is `State.retire`, `State.advance` or `State.raise`. -/

namespace Sys2Proof.Machine

open Sys2Proof.Safety

/-! ### The effective address and the bytes of a word (R22, R70) -/

/-- The effective address of an immediate in range: its 12-bit field is sign-extended (R70). -/
theorem State.effectiveAddress_eq {imm : Int} (h : immFits imm = true) (s : State) (rs1 : Reg) :
    s.effectiveAddress rs1 imm = s.readReg rs1 + (BitVec.ofInt 12 imm).signExtend 32 := by
  rw [State.effectiveAddress, add32_eq, sext32_eq_signExtend h]

theorem byteAddr_zero (a : Word) : byteAddr a 0 = a := BitVec.add_zero a

theorem wordAddrs_eq_map (a : Word) : wordAddrs a = (List.finRange 4).map (byteAddr a) := by
  simp [wordAddrs, List.finRange_succ]

theorem all_wordAddrs_eq_false_iff (a : Word) (p : Word → Bool) :
    (wordAddrs a).all p = false ↔ ∃ k : Fin 4, p (byteAddr a k) = false := by
  simp [wordAddrs_eq_map]

/-- The four byte addresses of a word are different numbers, also where they pass the top of the address space (R21). -/
theorem byteAddr_toNat_inj (a : Word) (j k : Fin 4) : (byteAddr a j).toNat = (byteAddr a k).toNat ↔ j = k := by
  rw [BitVec.toNat_inj, BitVec.add_right_inj]
  revert j k
  decide

theorem any_isDevice_of_plainWord {p : Platform} {a : Word} (h : plainWord p a = true) :
    (wordAddrs a).any (isDevice p) = false := by
  simpa [plainWord] using h

/-! ### What a word access finds in its checks (R25, R98) -/

theorem misalignmentFaults_eq_true_iff (p : Platform) (a : Word) :
    misalignmentFaults p a = true ↔ aligned4 a = false ∧ p.misalignedWord = .fault := by
  simp [misalignmentFaults]

theorem misalignmentFaults_eq_false_iff (p : Platform) (a : Word) :
    misalignmentFaults p a = false ↔ aligned4 a = true ∨ p.misalignedWord = .bytewise := by
  cases hp : p.misalignedWord <;> simp [misalignmentFaults, hp]

theorem loadWordOk_iff (p : Platform) (a : Word) :
    loadWordOk p a = true ↔ misalignmentFaults p a = false ∧ (wordAddrs a).all (readable p) = true := by
  rw [misalignmentFaults_eq_false_iff, loadWordOk, Bool.and_eq_true, Bool.or_eq_true, decide_eq_true_eq]

theorem storeWordOk_iff (p : Platform) (a : Word) :
    storeWordOk p a = true ↔ misalignmentFaults p a = false ∧ (wordAddrs a).all (writable p) = true := by
  rw [misalignmentFaults_eq_false_iff, storeWordOk, Bool.and_eq_true, Bool.or_eq_true, decide_eq_true_eq]

theorem State.memReadByte_of_granted {s : State} {a : Word} (h : readable s.platform a = true) :
    s.memReadByte a = .ok (s.loadByteAccess a) := by
  rw [State.memReadByte, if_pos h]

theorem State.memReadByte_of_refused {s : State} {a : Word} (h : readable s.platform a = false) :
    s.memReadByte a = .raises .loadAccessFault := by
  simp only [State.memReadByte, h, Bool.false_eq_true, if_false]

theorem State.memReadWord_of_granted {s : State} {a : Word} (h : loadWordOk s.platform a = true) :
    s.memReadWord a = .ok (s.loadWordAccess a) := by
  obtain ⟨halign, hperm⟩ := (loadWordOk_iff _ _).1 h
  simp only [State.memReadWord, halign, hperm, if_true, Bool.false_eq_true, if_false]

theorem State.memReadWord_of_misaligned {s : State} {a : Word} (h : misalignmentFaults s.platform a = true) :
    s.memReadWord a = .raises .loadAddressMisaligned := by
  rw [State.memReadWord, if_pos h]

theorem State.memReadWord_of_refused {s : State} {a : Word} (halign : misalignmentFaults s.platform a = false)
    (hperm : (wordAddrs a).all (readable s.platform) = false) : s.memReadWord a = .raises .loadAccessFault := by
  simp only [State.memReadWord, halign, hperm, Bool.false_eq_true, if_false]

theorem State.memWriteWord_of_granted {s : State} {a : Word} (h : storeWordOk s.platform a = true) (v : Word) :
    s.memWriteWord a v = .ok (s.storeWordAccess a v) := by
  obtain ⟨halign, hperm⟩ := (storeWordOk_iff _ _).1 h
  simp only [State.memWriteWord, halign, hperm, if_true, Bool.false_eq_true, if_false]

theorem State.memWriteWord_of_misaligned {s : State} {a : Word} (h : misalignmentFaults s.platform a = true)
    (v : Word) : s.memWriteWord a v = .raises .storeAddressMisaligned := by
  rw [State.memWriteWord, if_pos h]

theorem State.memWriteWord_of_refused {s : State} {a : Word} (halign : misalignmentFaults s.platform a = false)
    (hperm : (wordAddrs a).all (writable s.platform) = false) (v : Word) :
    s.memWriteWord a v = .raises .storeAccessFault := by
  simp only [State.memWriteWord, halign, hperm, Bool.false_eq_true, if_false]

/-! ### A load or a store, once its access has answered (R75) -/

theorem exec_lw_of_ok {rd rs1 : Reg} {imm : Int} {s : State} {r : Word × State}
    (h : s.memReadWord (s.effectiveAddress rs1 imm) = .ok r) :
    exec (.lw rd rs1 imm) s = .next (r.2.retire rd r.1) := by
  simp only [exec_lw, execLw, h]

theorem exec_lw_of_raises {rd rs1 : Reg} {imm : Int} {s : State} {c : Cause}
    (h : s.memReadWord (s.effectiveAddress rs1 imm) = .raises c) :
    exec (.lw rd rs1 imm) s = .next (s.raise c (s.effectiveAddress rs1 imm)) := by
  simp only [exec_lw, execLw, h]

theorem exec_lbu_of_ok {rd rs1 : Reg} {imm : Int} {s : State} {r : Byte × State}
    (h : s.memReadByte (s.effectiveAddress rs1 imm) = .ok r) :
    exec (.lbu rd rs1 imm) s = .next (r.2.retire rd (r.1.setWidth 32)) := by
  simp only [exec_lbu, execLbu, h]

theorem exec_lbu_of_raises {rd rs1 : Reg} {imm : Int} {s : State} {c : Cause}
    (h : s.memReadByte (s.effectiveAddress rs1 imm) = .raises c) :
    exec (.lbu rd rs1 imm) s = .next (s.raise c (s.effectiveAddress rs1 imm)) := by
  simp only [exec_lbu, execLbu, h]

theorem exec_sw_of_ok {rs2 rs1 : Reg} {imm : Int} {s u : State}
    (h : s.memWriteWord (s.effectiveAddress rs1 imm) (s.readReg rs2) = .ok u) :
    exec (.sw rs2 rs1 imm) s = .next u.advance := by
  simp only [exec_sw, execSw, h]

theorem exec_sw_of_raises {rs2 rs1 : Reg} {imm : Int} {s : State} {c : Cause}
    (h : s.memWriteWord (s.effectiveAddress rs1 imm) (s.readReg rs2) = .raises c) :
    exec (.sw rs2 rs1 imm) s = .next (s.raise c (s.effectiveAddress rs1 imm)) := by
  simp only [exec_sw, execSw, h]

/-- Raising a fault takes it and changes nothing else (R99, R100). -/
theorem State.raise_takesFault (s : State) (c : Cause) (info : Word) : takesFault c info s (s.raise c info) :=
  ⟨s.raise_fault c info, ⟨s.readReg_raise c info, s.raise_pc c info, s.raise_mem c info, s.raise_platform c info⟩,
    s.raise_deviceLog c info⟩

/-! ### The bytes of a loaded word (R24, R28, R29) -/

theorem byteOf_leWord_apply (f : Fin 4 → Byte) (k : Fin 4) : byteOf (leWord (f 0) (f 1) (f 2) (f 3)) k = f k := by
  obtain ⟨h0, h1, h2, h3⟩ := byteOf_leWord (f 0) (f 1) (f 2) (f 3)
  match k with
  | 0 => exact h0
  | 1 => exact h1
  | 2 => exact h2
  | 3 => exact h3

/-- A main byte reads as memory holds it, whatever the registers, the pc and the record of device accesses are. -/
theorem State.byteAt_eq_storedByte {s u : State} (hmem : u.mem = s.mem) (hplat : u.platform = s.platform) {a : Word}
    (ha : isDevice s.platform a = false) : u.byteAt a = storedByte s a := by
  rw [State.byteAt_of_main u a (by rw [hplat, ha]), hmem, storedByte]

/-- The state after the first `n` byte accesses of the load of a word at `a` (R28). -/
def State.afterByteLoads (s : State) (a : Word) : Nat → State
  | 0 => s
  | n + 1 => ((s.afterByteLoads a n).loadByteAccess (a + BitVec.ofNat 32 n)).2

@[simp] theorem State.afterByteLoads_mem (s : State) (a : Word) (n : Nat) : (s.afterByteLoads a n).mem = s.mem := by
  induction n with
  | zero => rfl
  | succ n ih => simp [State.afterByteLoads, ih]

@[simp] theorem State.afterByteLoads_platform (s : State) (a : Word) (n : Nat) :
    (s.afterByteLoads a n).platform = s.platform := by
  induction n with
  | zero => rfl
  | succ n ih => simp [State.afterByteLoads, ih]

/-- At a multiple of 4 each byte of a loaded word is read in the one access (R28). -/
theorem State.byteOf_loadWordAccess_of_aligned (s : State) {a : Word} (ha : aligned4 a = true) (k : Fin 4) :
    byteOf (s.loadWordAccess a).1 k = s.byteAt (byteAddr a k) := by
  rw [State.loadWordAccess, if_pos ha, ← byteOf_leWord_apply (fun j => s.byteAt (byteAddr a j)) k]
  simp [State.wordAt, byteAddr]

/-- Elsewhere each byte of a loaded word is read after the byte accesses before it (R28). -/
theorem State.byteOf_loadWordAccess_of_misaligned (s : State) {a : Word} (ha : aligned4 a = false) (k : Fin 4) :
    byteOf (s.loadWordAccess a).1 k = (s.afterByteLoads a k).byteAt (byteAddr a k) := by
  rw [← byteOf_leWord_apply (fun j => (s.afterByteLoads a j).byteAt (byteAddr a j)) k]
  simp [State.loadWordAccess, ha, State.afterByteLoads, byteAddr]

/-- A main byte of a loaded word is the one memory holds (R29, R33). -/
theorem State.byteOf_loadWordAccess_of_main (s : State) (a : Word) (k : Fin 4)
    (hk : isDevice s.platform (byteAddr a k) = false) :
    byteOf (s.loadWordAccess a).1 k = storedByte s (byteAddr a k) := by
  cases ha : aligned4 a with
  | true => rw [s.byteOf_loadWordAccess_of_aligned ha, State.byteAt_eq_storedByte rfl rfl hk]
  | false =>
    rw [s.byteOf_loadWordAccess_of_misaligned ha,
      State.byteAt_eq_storedByte (s.afterByteLoads_mem a k) (s.afterByteLoads_platform a k) hk]

/-! ### The bytes of a stored word (R23, R24) -/

/-- What memory holds at byte `k` of the word at `a` after the store: a device byte is not held in memory (log entry 5). -/
theorem State.read_storeWordAccess_byteAddr (s : State) (a v : Word) (k : Fin 4) :
    (s.storeWordAccess a v).mem.read (byteAddr a k).toNat =
      if isDevice s.platform (byteAddr a k) = false then some (byteOf v k) else s.mem.read (byteAddr a k).toNat := by
  have h0 : (byteAddr a k).toNat = a.toNat ↔ k = 0 := by rw [← byteAddr_toNat_inj a, byteAddr_zero]
  have h1 : (byteAddr a k).toNat = (a + 1).toNat ↔ k = 1 := byteAddr_toNat_inj a k 1
  have h2 : (byteAddr a k).toNat = (a + 2).toNat ↔ k = 2 := byteAddr_toNat_inj a k 2
  have h3 : (byteAddr a k).toNat = (a + 3).toNat ↔ k = 3 := byteAddr_toNat_inj a k 3
  rw [State.storeWordAccess_mem, State.read_putWord]
  simp only [h0, h1, h2, h3]
  fin_cases k <;> simp [byteAddr]

/-- A byte outside the word keeps what memory held (R23). -/
theorem State.read_storeWordAccess_of_ne (s : State) (a v : Word) (b : Nat)
    (hb : ∀ k : Fin 4, b ≠ (byteAddr a k).toNat) : (s.storeWordAccess a v).mem.read b = s.mem.read b := by
  have h0 : b ≠ a.toNat := byteAddr_zero a ▸ hb 0
  rw [State.storeWordAccess_mem, State.read_putWord, if_neg fun h => hb 3 h.2, if_neg fun h => hb 2 h.2,
    if_neg fun h => hb 1 h.2, if_neg fun h => h0 h.2]

/-! ### LW, LBU and SW (R71 to R73) -/

/-- R49 for a format with two must-be-zero register bits `j` and `k`. -/
theorem illegalWord_of_select_or {w : Word} (i : Instr) {j k : Nat} (hsel : w &&& rowSelect i = rowMatch i)
    (hj : (rowMask i).getLsbD j = true ∧ (rowMatch i).getLsbD j = false)
    (hk : (rowMask i).getLsbD k = true ∧ (rowMatch i).getLsbD k = false)
    (hbits : (w.getLsbD j || w.getLsbD k) = true) : illegalWord w = true := by
  obtain hbit | hbit := Bool.or_eq_true_iff.1 hbits
  · exact illegalWord_of_select i j hsel hj.1 hj.2 hbit
  · exact illegalWord_of_select i k hsel hk.1 hk.2 hbit

/-- Settles O4: the register bits by `illegalWord_of_select_or`, the word by `decodeWord_encode`; the loaded bytes by
`State.byteOf_loadWordAccess_of_main`, the faults by `State.raise_takesFault`. -/
theorem lwLoadsWord : Obligations.LwLoadsWord := by
  refine ⟨fun w hsel => illegalWord_of_select_or (.lw 0 0 0) hsel ⟨rfl, rfl⟩ ⟨rfl, rfl⟩,
    fun rd rs1 imm hlo hhi => ?_⟩
  have himm : immFits imm = true := (immFits_iff imm).2 ⟨hlo, hhi⟩
  refine ⟨decodeWord_encode (i := .lw rd rs1 imm) himm, fun s a ha => ?_⟩
  obtain rfl : a = s.effectiveAddress rs1 imm := ha.trans (s.effectiveAddress_eq himm rs1).symm
  refine ⟨fun hok => ?_, fun halign hset => ?_, fun haccept hperm => ?_⟩
  · refine ⟨_, _, exec_lw_of_ok (State.memReadWord_of_granted hok), fun r => ?_, by simp, by simp, by simp, by simp,
      s.byteOf_loadWordAccess_of_main _, fun hplain => ?_⟩
    · rw [State.readReg_retire, State.readReg_loadWordAccess]
    · rw [State.retire_deviceLog, State.loadWordAccess_of_main _ _ (any_isDevice_of_plainWord hplain)]
  · have hmis := (misalignmentFaults_eq_true_iff _ _).2 ⟨halign, hset⟩
    exact ⟨_, exec_lw_of_raises (State.memReadWord_of_misaligned hmis), s.raise_takesFault _ _⟩
  · have hmis := (misalignmentFaults_eq_false_iff _ _).2 haccept
    exact ⟨_, exec_lw_of_raises (State.memReadWord_of_refused hmis ((all_wordAddrs_eq_false_iff _ _).2 hperm)),
      s.raise_takesFault _ _⟩

/-- Settles O5, as O4: the loaded byte by `State.byteAt_eq_storedByte`. -/
theorem lbuLoadsByte : Obligations.LbuLoadsByte := by
  refine ⟨fun w hsel => illegalWord_of_select_or (.lbu 0 0 0) hsel ⟨rfl, rfl⟩ ⟨rfl, rfl⟩,
    fun rd rs1 imm hlo hhi => ?_⟩
  have himm : immFits imm = true := (immFits_iff imm).2 ⟨hlo, hhi⟩
  refine ⟨decodeWord_encode (i := .lbu rd rs1 imm) himm, fun s a ha => ?_⟩
  obtain rfl : a = s.effectiveAddress rs1 imm := ha.trans (s.effectiveAddress_eq himm rs1).symm
  refine ⟨fun hok => ?_, fun hperm => ?_⟩
  · refine ⟨_, _, exec_lbu_of_ok (State.memReadByte_of_granted hok), fun r => ?_, by simp, by simp, by simp, by simp,
      fun hmain => ⟨State.byteAt_eq_storedByte rfl rfl hmain, ?_⟩⟩
    · rw [State.readReg_retire, State.readReg_loadByteAccess, State.loadByteAccess_value]
    · rw [State.retire_deviceLog, State.loadByteAccess_deviceLog, if_neg (by simp [hmain])]
  · exact ⟨_, exec_lbu_of_raises (State.memReadByte_of_refused hperm), s.raise_takesFault _ _⟩

/-- Settles O6, as O4: the stored bytes by `State.read_storeWordAccess_byteAddr`, the frame over memory by
`State.read_storeWordAccess_of_ne`. -/
theorem swStoresWord : Obligations.SwStoresWord := by
  refine ⟨fun w hsel => illegalWord_of_select_or (.sw 0 0 0) hsel ⟨rfl, rfl⟩ ⟨rfl, rfl⟩,
    fun rs2 rs1 imm hlo hhi => ?_⟩
  have himm : immFits imm = true := (immFits_iff imm).2 ⟨hlo, hhi⟩
  refine ⟨decodeWord_encode (i := .sw rs2 rs1 imm) himm, fun s a ha => ?_⟩
  subst ha
  refine ⟨s.effectiveAddress_eq himm rs1, fun hok => ?_, fun halign hset => ?_, fun haccept hperm => ?_⟩
  · refine ⟨_, exec_sw_of_ok (State.memWriteWord_of_granted hok _), by simp, by simp, by simp, by simp,
      fun k hmain => ?_, fun k hdev => ?_, s.read_storeWordAccess_of_ne _ _, fun hplain => ?_⟩
    · rw [State.advance_mem, State.read_storeWordAccess_byteAddr, if_pos hmain]
    · rw [State.advance_mem, State.read_storeWordAccess_byteAddr, if_neg (by simp [hdev])]
    · exact s.storeWordAccess_deviceLog_of_main _ _ (any_isDevice_of_plainWord hplain)
  · have hmis := (misalignmentFaults_eq_true_iff _ _).2 ⟨halign, hset⟩
    exact ⟨_, exec_sw_of_raises (State.memWriteWord_of_misaligned hmis _), s.raise_takesFault _ _⟩
  · have hmis := (misalignmentFaults_eq_false_iff _ _).2 haccept
    exact ⟨_, exec_sw_of_raises (State.memWriteWord_of_refused hmis ((all_wordAddrs_eq_false_iff _ _).2 hperm) _),
      s.raise_takesFault _ _⟩

end Sys2Proof.Machine
end

section
/-! PROOFS. JALR, the only control transfer, of spec/42_jump.md. Its row is the only one of its opcode, so a word of that
opcode that decodes at all fits the row. The jump is one write of a register and one of the pc, and a pc with bit 1 set is
no multiple of 4, which the next step finds first. -/

namespace Sys2Proof

/-! ### The words of JALR's opcode (R50, R51) -/

/-- Every row selects the whole opcode. -/
theorem rowMask_and_opcode (i : Instr) : rowMask i &&& 0x0000007F = 0x0000007F := by
  cases i <;> simp only [rowMask] <;> decide

/-- Of the eight rows JALR's alone has its opcode. -/
theorem jalr_of_rowMatch_opcode {i : Instr} (h : rowMatch i &&& 0x0000007F = 0x00000067) :
    ∃ rd rs1 imm, i = .jalr rd rs1 imm := by
  cases i with
  | jalr rd rs1 imm => exact ⟨rd, rs1, imm, rfl⟩
  | _ => exact absurd h (by simp only [rowMatch]; decide)

/-- A word of JALR's opcode decodes, if at all, to a JALR. -/
theorem jalr_of_decodeWord_of_opcode {w : Word} {i : Instr} (hop : w &&& 0x0000007F = 0x00000067)
    (hi : decodeWord w = .instr i) : ∃ rd rs1 imm, i = .jalr rd rs1 imm := by
  refine jalr_of_rowMatch_opcode ?_
  rw [← fits_of_decodeWord hi, BitVec.and_assoc, rowMask_and_opcode, hop]

/-- A legal word of JALR's opcode has funct3 000 and its register bits clear (R49, R51). -/
theorem fields_of_decodeWord_of_jalrOpcode {w : Word} {i : Instr} (hop : w &&& 0x0000007F = 0x00000067)
    (hi : decodeWord w = .instr i) : funct3Field w = 0b000 ∧ (w.getLsbD 11 || w.getLsbD 19) = false := by
  obtain ⟨rd, rs1, imm, rfl⟩ := jalr_of_decodeWord_of_opcode hop hi
  exact ((fitsI_iff w 0b000 0b1100111).1 (fits_of_decodeWord hi)).2

end Sys2Proof

namespace Sys2Proof.Machine

open Sys2Proof.Safety

/-! ### The jump, and the step after it (R80, R82, R92) -/

theorem clearBit0_getLsbD (a : Word) {n : Nat} (hn : n < 32) :
    (clearBit0 a).getLsbD n = (decide (n ≠ 0) && a.getLsbD n) := by
  rw [clearBit0, BitVec.getLsbD_and]
  interval_cases n <;> simp

theorem aligned4_eq_false_of_bit1 {a : Word} (h : a.getLsbD 1 = true) : aligned4 a = false := by
  refine decide_eq_false fun hlow => ?_
  have hbit : (0b00#2).getLsbD 1 = true := by rw [← hlow, BitVec.getLsbD_extractLsb']; simpa using h
  cases hbit

/-- The check of the pc's alignment is the first of a step that runs (R14, R98). -/
theorem step_of_misaligned {s : State} (hfault : s.fault = none) (hpc : aligned4 s.pc = false) :
    step s = .next (s.raise .instructionAddressMisaligned s.pc) := by
  simp [step, State.fetch, hfault, hpc]

theorem exec_jalr_eq_setPc (rd rs1 : Reg) (imm : Int) (s : State) :
    exec (.jalr rd rs1 imm) s =
      .next ((s.writeReg rd (s.pc + 4)).setPc (clearBit0 (s.effectiveAddress rs1 imm))) := by
  rw [exec_jalr, execJalr, add32_eq]

/-- A write of a register and a jump change that register and the pc, and nothing else (R11, R80). -/
theorem State.setPc_writeReg_effect (s : State) (rd : Reg) (v a : Word) :
    writesReg rd v s ((s.writeReg rd v).setPc a) ∧ keepsRest s ((s.writeReg rd v).setPc a) :=
  ⟨fun r => s.readReg_writeReg rd r v, s.writeReg_mem rd v, s.writeReg_fault rd v, s.writeReg_platform rd v,
    s.writeReg_deviceLog rd v⟩

/-- Settles O8: the illegal words by `fields_of_decodeWord_of_jalrOpcode`, the word by `decodeWord_encode`, link and frame by
`State.setPc_writeReg_effect`, the target by `clearBit0_getLsbD`, the next step by `step_of_misaligned`. -/
theorem jalrJumpsAndLinks : Obligations.JalrJumpsAndLinks := by
  refine ⟨fun w hop hbad => (illegalWord_iff w).2 fun i hi => ?_, fun rd rs1 imm hlo hhi => ?_⟩
  · obtain ⟨hf3, hbits⟩ := fields_of_decodeWord_of_jalrOpcode hop hi
    obtain hne | hset := hbad
    · exact hne hf3
    · rw [Bool.or_comm, hset] at hbits
      cases hbits
  · have himm : immFits imm = true := (immFits_iff imm).2 ⟨hlo, hhi⟩
    refine ⟨decodeWord_encode (i := .jalr rd rs1 imm) himm, fun s temp htemp => ?_⟩
    obtain rfl : temp = s.effectiveAddress rs1 imm := htemp.trans (s.effectiveAddress_eq himm rs1).symm
    obtain ⟨hlink, hframe⟩ := s.setPc_writeReg_effect rd (s.pc + 4) (clearBit0 (s.effectiveAddress rs1 imm))
    refine ⟨_, exec_jalr_eq_setPc rd rs1 imm s, hlink, fun n => clearBit0_getLsbD _, hframe, fun hnone hbit1 => ?_⟩
    obtain ⟨-, hfault, -⟩ := hframe
    exact ⟨_, step_of_misaligned (hfault.trans hnone) (aligned4_eq_false_of_bit1 hbit1), State.raise_takesFault _ _ _⟩

end Sys2Proof.Machine
end

section
/-! PROOFS. R109 of spec/60_exceptions.md: nothing but a recorded fault keeps the hart from a step. Each check of R14's order
either answers what the next one needs or records its fault, and execution answers a next state for every instruction,
because a refused access is a recorded fault too. The other half (D5) is in `step_cases`. -/

namespace Sys2Proof.Machine

open Sys2Proof.Safety

/-! ### Every instruction answers a next state (R71 to R74, R100) -/

theorem exec_sb_of_ok {rs2 rs1 : Reg} {imm : Int} {s u : State}
    (h : s.memWriteByte (s.effectiveAddress rs1 imm) (byteOf (s.readReg rs2) 0) = .ok u) :
    exec (.sb rs2 rs1 imm) s = .next u.advance := by
  simp only [exec_sb, execSb, h]

theorem exec_sb_of_raises {rs2 rs1 : Reg} {imm : Int} {s : State} {c : Cause}
    (h : s.memWriteByte (s.effectiveAddress rs1 imm) (byteOf (s.readReg rs2) 0) = .raises c) :
    exec (.sb rs2 rs1 imm) s = .next (s.raise c (s.effectiveAddress rs1 imm)) := by
  simp only [exec_sb, execSb, h]

/-- Execution is total: a load or a store retires or records its fault, by the answer of its access; the others retire. -/
theorem exists_exec_eq_next (i : Instr) (s : State) : ∃ t, exec i s = .next t := by
  cases i with
  | add | addi | lui | jalr => exact ⟨_, rfl⟩
  | lw rd rs1 imm =>
    cases h : s.memReadWord (s.effectiveAddress rs1 imm) with
    | raises c => exact ⟨_, exec_lw_of_raises h⟩
    | ok r => exact ⟨_, exec_lw_of_ok h⟩
  | lbu rd rs1 imm =>
    cases h : s.memReadByte (s.effectiveAddress rs1 imm) with
    | raises c => exact ⟨_, exec_lbu_of_raises h⟩
    | ok r => exact ⟨_, exec_lbu_of_ok h⟩
  | sw rs2 rs1 imm =>
    cases h : s.memWriteWord (s.effectiveAddress rs1 imm) (s.readReg rs2) with
    | raises c => exact ⟨_, exec_sw_of_raises h⟩
    | ok u => exact ⟨_, exec_sw_of_ok h⟩
  | sb rs2 rs1 imm =>
    cases h : s.memWriteByte (s.effectiveAddress rs1 imm) (byteOf (s.readReg rs2) 0) with
    | raises c => exact ⟨_, exec_sb_of_raises h⟩
    | ok u => exact ⟨_, exec_sb_of_ok h⟩

/-! ### A step with no fault recorded, by its first check that decides it (R14, R98) -/

theorem step_of_fetch_raises {s : State} {c : Cause} (hfault : s.fault = none) (hfetch : s.fetch = .raises c) :
    step s = .next (s.raise c s.pc) := by
  simp only [step, hfault, hfetch]

theorem step_of_illegal {s u : State} {w : Word} {why : Reject} (hfault : s.fault = none)
    (hfetch : s.fetch = .ok (w, u)) (hw : decodeWord w = .illegal why) :
    step s = .next (u.raise .illegalInstruction w) := by
  simp only [step, hfault, hfetch, hw]

theorem step_of_instr {s u : State} {w : Word} {i : Instr} (hfault : s.fault = none)
    (hfetch : s.fetch = .ok (w, u)) (hw : decodeWord w = .instr i) : step s = exec i u := by
  simp only [step, hfault, hfetch, hw]

theorem exists_step_eq_next {s : State} (hfault : s.fault = none) : ∃ t, step s = .next t := by
  cases hfetch : s.fetch with
  | raises c => exact ⟨_, step_of_fetch_raises hfault hfetch⟩
  | ok r =>
    obtain ⟨w, u⟩ := r
    cases hw : decodeWord w with
    | illegal why => exact ⟨_, step_of_illegal hfault hfetch hw⟩
    | instr i =>
      rw [step_of_instr hfault hfetch hw]
      exact exists_exec_eq_next i u

/-- Settles O18: the hart steps by `exists_step_eq_next`, only then by `step_cases`; WFI's word is one closed decoding. -/
theorem stepsWheneverNoFault : Obligations.StepsWheneverNoFault :=
  ⟨fun s => ⟨fun ⟨t, ht⟩ => (step_cases s t ht).1, exists_step_eq_next⟩, by decide⟩

end Sys2Proof.Machine
end

section
/-! PROOFS. The encoding of spec/30_encoding.md both ways. One way is `decodeWord_encode`; the other puts a legal
word together again from the fields that its instruction holds, format by format, since the bits that no field holds
are the register bits that R49 has clear. -/

namespace Sys2Proof

/-! ### From the instruction (R40, R50) -/

/-- Settles O13: the word by `decodeWord_encode`; its bytes by `decode_eq_instr_iff`, for they make the word again. -/
theorem decodeOfEncode : Obligations.DecodeOfEncode := by
  refine fun i h => ⟨decodeWord_encode h, fun rest => decode_eq_instr_iff.2 ⟨_, _, _, _, rfl, ?_⟩⟩
  rw [leWord_byteOf, decodeWord_encode h]

/-! ### From the word (R41 to R49) -/

/-- A specifier field with its top bit clear is the field of the register that its low bits name (R49). -/
theorem regBits_toFin_extractLsb' (w : Word) (start : Nat) (h : w.getLsbD (start + 4) = false) :
    regBits (w.extractLsb' start 4).toFin = w.extractLsb' start 5 := by
  have hlow : (w.extractLsb' start 5).extractLsb' 0 4 = w.extractLsb' start 4 := by
    refine BitVec.eq_of_getLsbD_eq fun k hk => ?_
    rw [BitVec.getLsbD_extractLsb', BitVec.getLsbD_extractLsb', BitVec.getLsbD_extractLsb', Nat.zero_add,
      decide_eq_true (Nat.lt_succ_of_lt hk), Bool.true_and]
  rw [← hlow, regBits_of_low _ (by simpa using h)]

/-- A word that fits an R row is made of its fields. -/
theorem encodeR_fields {w : Word} {f7 : BitVec 7} {f3 : BitVec 3} {op : BitVec 7}
    (h : opcodeField w = op ∧ funct3Field w = f3 ∧ funct7Field w = f7 ∧
      (w.getLsbD 11 || w.getLsbD 19 || w.getLsbD 24) = false) :
    encodeR f7 (rs2Field w) (rs1Field w) f3 (rdField w) op = w := by
  simp only [Bool.or_eq_false_iff] at h
  obtain ⟨rfl, rfl, rfl, ⟨hrd, hrs1⟩, hrs2⟩ := h
  rw [encodeR, rs2Field, rs1Field, rdField, regBits_toFin_extractLsb' w 7 hrd, regBits_toFin_extractLsb' w 15 hrs1,
    regBits_toFin_extractLsb' w 20 hrs2]
  simp (disch := decide) only [funct7Field, funct3Field, opcodeField,
    BitVec.extractLsb'_append_extractLsb'_eq_extractLsb', BitVec.extractLsb'_eq_self]

/-- A word that fits an I row is made of its fields. -/
theorem encodeI_fields {w : Word} {f3 : BitVec 3} {op : BitVec 7}
    (h : opcodeField w = op ∧ funct3Field w = f3 ∧ (w.getLsbD 11 || w.getLsbD 19) = false) :
    encodeI (BitVec.ofInt 12 (immIField w)) (rs1Field w) f3 (rdField w) op = w := by
  simp only [Bool.or_eq_false_iff] at h
  obtain ⟨rfl, rfl, hrd, hrs1⟩ := h
  rw [encodeI, immIField, BitVec.ofInt_toInt, rs1Field, rdField, regBits_toFin_extractLsb' w 7 hrd,
    regBits_toFin_extractLsb' w 15 hrs1]
  simp (disch := decide) only [funct3Field, opcodeField, BitVec.extractLsb'_append_extractLsb'_eq_extractLsb',
    BitVec.extractLsb'_eq_self]

/-- A word that fits an S row is made of its fields. -/
theorem encodeS_fields {w : Word} {f3 : BitVec 3} {op : BitVec 7}
    (h : opcodeField w = op ∧ funct3Field w = f3 ∧ (w.getLsbD 19 || w.getLsbD 24) = false) :
    encodeS (BitVec.ofInt 12 (immSField w)) (rs2Field w) (rs1Field w) f3 op = w := by
  simp only [Bool.or_eq_false_iff] at h
  obtain ⟨rfl, rfl, hrs1, hrs2⟩ := h
  rw [encodeS, immSField, BitVec.ofInt_toInt, BitVec.extractLsb'_append_eq_left, BitVec.extractLsb'_append_eq_right,
    rs2Field, rs1Field, regBits_toFin_extractLsb' w 15 hrs1, regBits_toFin_extractLsb' w 20 hrs2]
  simp (disch := decide) only [funct3Field, opcodeField, BitVec.extractLsb'_append_extractLsb'_eq_extractLsb',
    BitVec.extractLsb'_eq_self]

/-- A word that fits the U row is made of its fields. -/
theorem encodeU_fields {w : Word} {op : BitVec 7} (h : opcodeField w = op ∧ w.getLsbD 11 = false) :
    encodeU (BitVec.ofNat 20 (immUField w)) (rdField w) op = w := by
  obtain ⟨rfl, hrd⟩ := h
  rw [encodeU, immUField, BitVec.ofNat_toNat, BitVec.setWidth_eq, rdField, regBits_toFin_extractLsb' w 7 hrd]
  simp (disch := decide) only [opcodeField, BitVec.extractLsb'_append_extractLsb'_eq_extractLsb',
    BitVec.extractLsb'_eq_self]

/-- A word that fits a row is the word of that row's instruction with the word's own fields as operands (R50). -/
theorem encode_withFieldsOf {w : Word} (i : Instr) (h : w &&& rowMask i = rowMatch i) :
    encode (i.withFieldsOf w) = w := by
  cases i with
  | add => exact encodeR_fields ((fitsR_iff w 0b0000000 0b000 0b0110011).1 h)
  | addi => exact encodeI_fields ((fitsI_iff w 0b000 0b0010011).1 h)
  | lui => exact encodeU_fields ((fitsU_iff w 0b0110111).1 h)
  | lw => exact encodeI_fields ((fitsI_iff w 0b010 0b0000011).1 h)
  | lbu => exact encodeI_fields ((fitsI_iff w 0b100 0b0000011).1 h)
  | sw => exact encodeS_fields ((fitsS_iff w 0b010 0b0100011).1 h)
  | sb => exact encodeS_fields ((fitsS_iff w 0b000 0b0100011).1 h)
  | jalr => exact encodeI_fields ((fitsI_iff w 0b000 0b1100111).1 h)

/-- Operands read from the fields of a word are in range (R56). -/
theorem wf_withFieldsOf (w : Word) (i : Instr) : (i.withFieldsOf w).wf = true := by
  cases i with
  | add => rfl
  | lui => exact decide_eq_true (Nat.le_of_lt_succ (BitVec.isLt _))
  | addi | lw | lbu | sw | sb | jalr => exact fits_toInt _

/-- Settles O14: a word decodes to an instruction of the row it fits, with its own fields as operands
(`decodeWord_eq_instr_iff`). -/
theorem encodeOfDecode : Obligations.EncodeOfDecode := by
  intro w i h
  obtain ⟨hfit, hi⟩ := decodeWord_eq_instr_iff.1 h
  rw [← hi]
  exact ⟨wf_withFieldsOf w i, encode_withFieldsOf i hfit⟩

/-- Settles O16: eight closed decodings. -/
theorem sourceExamplesDecode : Obligations.SourceExamplesDecode := by
  refine ⟨?_, ?_, ?_, ?_, ?_, ?_, ?_, ?_⟩ <;> decide

end Sys2Proof
end

section
/-! PROOFS. What a step does, said once: `stepEffect_of_step` lists the four faults a step can record and the
completion of an instruction, each with what decided it, in R14's order. The statements about every step are case
analyses over that list. -/

namespace Sys2Proof.Machine

open Sys2Proof.Safety

/-! ### The checks of a step, decided (R14, R98) -/

theorem State.fetch_of_misaligned {s : State} (h : aligned4 s.pc = false) :
    s.fetch = .raises .instructionAddressMisaligned := by
  simp [State.fetch, h]

theorem State.fetch_of_not_fetchable {s : State} (hpc : aligned4 s.pc = true)
    (h : ∃ k : Fin 4, fetchable s.platform (byteAddr s.pc k) = false) : s.fetch = .raises .instructionAccessFault := by
  simp [State.fetch, hpc, (all_wordAddrs_eq_false_iff _ _).2 h]

theorem fetchOk_iff (s : State) :
    fetchOk s = true ↔ aligned4 s.pc = true ∧ (wordAddrs s.pc).all (fetchable s.platform) = true := Bool.and_eq_true_iff

theorem State.fetch_of_fetchOk {s : State} (h : fetchOk s = true) : s.fetch = .ok (s.wordAt s.pc, afterFetch s) := by
  obtain ⟨hpc, hperm⟩ := (fetchOk_iff s).1 h
  simp only [State.fetch, hpc, hperm, if_true]

/-- A fetch that touches no device byte leaves the state as it is. -/
theorem afterFetch_of_plainWord {s : State} (h : plainWord s.platform s.pc = true) : afterFetch s = s :=
  s.noteDevice_of_main _ _ (any_isDevice_of_plainWord h)

/-- Settles O17: the fetch answers the word, and its own state is the same one where no byte is a device's. -/
theorem stepRunsDecodedInstruction : Obligations.StepRunsDecodedInstruction := by
  intro s i hfault hfetch hw
  have hstep := step_of_instr hfault (State.fetch_of_fetchOk hfetch) hw
  exact ⟨hstep, fun hplain => by rw [hstep, afterFetch_of_plainWord hplain]⟩

/-- Settles O19: the first check of a step. -/
theorem noStepAfterFault : Obligations.NoStepAfterFault := by
  intro s r hfault
  simp only [step, hfault]

/-- Settles O20: the two checks of the fetch, in their order. -/
theorem fetchFaultsInOrder : Obligations.FetchFaultsInOrder := fun s hfault =>
  ⟨fun hpc => ⟨_, step_of_fetch_raises hfault (State.fetch_of_misaligned hpc), s.raise_takesFault _ _⟩,
    fun hpc hperm => ⟨_, step_of_fetch_raises hfault (State.fetch_of_not_fetchable hpc hperm), s.raise_takesFault _ _⟩⟩

/-- A word that fits no row of the opcode map is rejected (R50, R52). -/
theorem exists_illegal_of_not_fits {w : Word} (h : ∀ i, w &&& rowMask i ≠ rowMatch i) :
    ∃ why, decodeWord w = .illegal why := by
  cases hw : decodeWord w with
  | illegal why => exact ⟨why, rfl⟩
  | instr i => exact absurd (fits_of_decodeWord hw) (h i)

/-- Settles O21: an instruction that the word decoded to would fit its row. -/
theorem unlistedWordIsIllegal : Obligations.UnlistedWordIsIllegal := by
  rintro s w hfault hfetch rfl hadd haddi hlui hlw hlbu hsw hsb hjalr
  obtain ⟨why, hw⟩ : ∃ why, decodeWord (s.wordAt s.pc) = .illegal why := by
    refine exists_illegal_of_not_fits fun i => ?_
    cases i with
    | add => exact hadd
    | addi => exact haddi
    | lui => exact hlui
    | lw => exact hlw
    | lbu => exact hlbu
    | sw => exact hsw
    | sb => exact hsb
    | jalr => exact hjalr
  exact ⟨_, step_of_illegal hfault (State.fetch_of_fetchOk hfetch) hw, State.raise_takesFault _ _ _⟩

/-! ### A jump to itself (R80, R117) -/

theorem aligned4_iff (a : Word) : aligned4 a = true ↔ a.getLsbD 0 = false ∧ a.getLsbD 1 = false := by
  rw [aligned4, decide_eq_true_iff]
  constructor
  · intro h
    have hbit : ∀ n < 2, a.getLsbD n = false := fun n hn => by
      have := congrArg (·.getLsbD n) h
      simpa [hn] using this
    exact ⟨hbit 0 (by decide), hbit 1 (by decide)⟩
  · rintro ⟨h0, h1⟩
    refine BitVec.eq_of_getLsbD_eq fun n hn => ?_
    interval_cases n
    · simpa using h0
    · simpa using h1

theorem clearBit0_of_even {a : Word} (h : a.getLsbD 0 = false) : clearBit0 a = a := by
  refine BitVec.eq_of_getLsbD_eq fun n hn => ?_
  rw [clearBit0_getLsbD a hn]
  cases n with
  | zero => simpa using h.symm
  | succ n => simp

/-- Settles O25: with rd = x0 nothing is written, and the target is the pc, which as a multiple of 4 has bit 0
clear. -/
theorem endedRunSpins : Obligations.EndedRunSpins := by
  intro s rs1 hend hfetch hplain hw hbase
  have hfault : s.fault = none := by
    rw [runEnded, Bool.and_eq_true, decide_eq_true_eq] at hend
    exact hend.1
  have htarget : s.effectiveAddress rs1 0 = s.pc := by
    rw [State.effectiveAddress, add32_eq, hbase]
    exact BitVec.add_zero s.pc
  obtain ⟨heven, -⟩ := (aligned4_iff s.pc).1 ((fetchOk_iff s).1 hfetch).1
  rw [(stepRunsDecodedInstruction s _ hfault hfetch hw).2 hplain, exec_jalr_eq_setPc, State.writeReg_zero, htarget,
    clearBit0_of_even heven]
  rfl

/-! ### What an executed instruction does (R71 to R75) -/

/-- The instruction makes an access at `a` whose checks answer fault `c`. -/
def refusesWith (s : State) (c : Cause) (a : Word) : Instr → Prop
  | .lw _ rs1 imm => a = s.effectiveAddress rs1 imm ∧ s.memReadWord a = .raises c
  | .lbu _ rs1 imm => a = s.effectiveAddress rs1 imm ∧ s.memReadByte a = .raises c
  | .sw rs2 rs1 imm => a = s.effectiveAddress rs1 imm ∧ s.memWriteWord a (s.readReg rs2) = .raises c
  | .sb rs2 rs1 imm => a = s.effectiveAddress rs1 imm ∧ s.memWriteByte a (byteOf (s.readReg rs2) 0) = .raises c
  | _ => False

/-- The instruction has the permission to store, if it stores, and `m` is the memory it leaves. -/
def leavesMem (s : State) (m : Memory) : Instr → Prop
  | .sw rs2 rs1 imm => storeWordOk s.platform (s.effectiveAddress rs1 imm) = true ∧
      m = (s.storeWordAccess (s.effectiveAddress rs1 imm) (s.readReg rs2)).mem
  | .sb rs2 rs1 imm => writable s.platform (s.effectiveAddress rs1 imm) = true ∧
      m = (s.putByte (s.effectiveAddress rs1 imm) (byteOf (s.readReg rs2) 0)).mem
  | _ => m = s.mem

/-- The pc after the instruction completes (R15, R80). -/
def nextPc (s : State) : Instr → Word
  | .jalr _ rs1 imm => clearBit0 (s.effectiveAddress rs1 imm)
  | _ => s.pc + 4

/-- The instruction completes from `s` in `t`, as far as the pc, the memory, the fault record and the platform go. -/
structure CompletesIn (s : State) (i : Instr) (t : State) : Prop where
  fault : t.fault = s.fault
  platform : t.platform = s.platform
  pc : t.pc = nextPc s i
  mem : leavesMem s t.mem i

/-- An executed instruction completes, or its access is refused and it takes that fault at the access's address. -/
theorem exec_completes_or_refuses {i : Instr} {s t : State} (h : exec i s = .next t) :
    CompletesIn s i t ∨ ∃ c a, refusesWith s c a i ∧ t = s.raise c a := by
  cases i with
  | add | addi | lui | jalr => cases h; exact .inl ⟨by simp, by simp, by simp [nextPc], by simp [leavesMem]⟩
  | lw rd rs1 imm =>
    obtain ⟨-, hm⟩ | ⟨-, -, hm⟩ | ⟨-, -, hm⟩ := s.memReadWord_cases (s.effectiveAddress rs1 imm)
    · cases (exec_lw_of_raises hm).symm.trans h
      exact .inr ⟨_, _, ⟨rfl, hm⟩, rfl⟩
    · cases (exec_lw_of_ok hm).symm.trans h
      exact .inl ⟨by simp, by simp, by simp [nextPc], by simp [leavesMem]⟩
    · cases (exec_lw_of_raises hm).symm.trans h
      exact .inr ⟨_, _, ⟨rfl, hm⟩, rfl⟩
  | lbu rd rs1 imm =>
    obtain ⟨-, hm⟩ | ⟨-, hm⟩ := s.memReadByte_cases (s.effectiveAddress rs1 imm)
    · cases (exec_lbu_of_ok hm).symm.trans h
      exact .inl ⟨by simp, by simp, by simp [nextPc], by simp [leavesMem]⟩
    · cases (exec_lbu_of_raises hm).symm.trans h
      exact .inr ⟨_, _, ⟨rfl, hm⟩, rfl⟩
  | sw rs2 rs1 imm =>
    obtain ⟨-, hm⟩ | ⟨hmis, hperm, hm⟩ | ⟨-, -, hm⟩ :=
      s.memWriteWord_cases (s.effectiveAddress rs1 imm) (s.readReg rs2)
    · cases (exec_sw_of_raises hm).symm.trans h
      exact .inr ⟨_, _, ⟨rfl, hm⟩, rfl⟩
    · cases (exec_sw_of_ok hm).symm.trans h
      exact .inl ⟨by simp, by simp, by simp [nextPc], (storeWordOk_iff _ _).2 ⟨hmis, hperm⟩, rfl⟩
    · cases (exec_sw_of_raises hm).symm.trans h
      exact .inr ⟨_, _, ⟨rfl, hm⟩, rfl⟩
  | sb rs2 rs1 imm =>
    obtain ⟨hperm, hm⟩ | ⟨-, hm⟩ := s.memWriteByte_cases (s.effectiveAddress rs1 imm) (byteOf (s.readReg rs2) 0)
    · cases (exec_sb_of_ok hm).symm.trans h
      exact .inl ⟨by simp, by simp, by simp [nextPc], hperm, by simp⟩
    · cases (exec_sb_of_raises hm).symm.trans h
      exact .inr ⟨_, _, ⟨rfl, hm⟩, rfl⟩

/-! ### What a step does (R14) -/

/-- The ways in which a step from `s` answers a next state. -/
inductive StepEffect (s : State) : State → Prop
  | misaligned (hpc : aligned4 s.pc = false) : StepEffect s (s.raise .instructionAddressMisaligned s.pc)
  | notFetchable (hpc : aligned4 s.pc = true) (hperm : ∃ k : Fin 4, fetchable s.platform (byteAddr s.pc k) = false) :
    StepEffect s (s.raise .instructionAccessFault s.pc)
  | illegal (hfetch : fetchOk s = true) (hw : illegalWord (s.wordAt s.pc) = true) :
    StepEffect s ((afterFetch s).raise .illegalInstruction (s.wordAt s.pc))
  | refused (hfetch : fetchOk s = true) (i : Instr) (hw : decodeWord (s.wordAt s.pc) = .instr i) {c : Cause} {a : Word}
    (haccess : refusesWith (afterFetch s) c a i) : StepEffect s ((afterFetch s).raise c a)
  | completed (hfetch : fetchOk s = true) (i : Instr) (hw : decodeWord (s.wordAt s.pc) = .instr i) {t : State}
    (hdone : CompletesIn (afterFetch s) i t) : StepEffect s t

/-- A step that answers a next state started with no fault recorded, and did what `StepEffect` lists. -/
theorem stepEffect_of_step {s t : State} (h : step s = .next t) : s.fault = none ∧ StepEffect s t := by
  obtain ⟨hfault, hcases⟩ := step_cases s t h
  refine ⟨hfault, ?_⟩
  obtain ⟨hpc, hf⟩ | ⟨hpc, hperm, hf⟩ | ⟨hpc, hperm, hf⟩ := s.fetch_cases
  · cases (step_of_fetch_raises hfault hf).symm.trans h
    exact .misaligned hpc
  · cases (step_of_fetch_raises hfault hf).symm.trans h
    exact .notFetchable hpc ((all_wordAddrs_eq_false_iff _ _).1 hperm)
  · have hfetch : fetchOk s = true := (fetchOk_iff s).2 ⟨hpc, hperm⟩
    cases hw : decodeWord (s.wordAt s.pc) with
    | illegal why =>
      cases (step_of_illegal hfault hf hw).symm.trans h
      exact .illegal hfetch (by simp [illegalWord, hw])
    | instr i =>
      rw [step_of_instr hfault hf hw] at h
      obtain hdone | ⟨c, a, haccess, rfl⟩ := exec_completes_or_refuses h
      · exact .completed hfetch i hw hdone
      · exact .refused hfetch i hw haccess

/-- Settles O29: no case of a step touches the platform. -/
theorem stepKeepsPlatform : Obligations.StepKeepsPlatform := by
  intro s t h
  obtain ⟨-, heffect⟩ := stepEffect_of_step h
  cases heffect with
  | misaligned | notFetchable => rfl
  | illegal | refused => exact s.noteDevice_platform _ _
  | completed _ _ _ hdone => exact hdone.platform.trans (s.noteDevice_platform _ _)

end Sys2Proof.Machine
end

section
/-! PROOFS. The faults of spec/60_exceptions.md. A step that records a fault has raised it in one of the four ways of
`StepEffect`, which fixes its condition and its value; everything else is as before. -/

namespace Sys2Proof.Machine

open Sys2Proof.Safety

/-! ### A recorded fault is precise (R99, R100) -/

theorem sameMachine_raise_afterFetch (s : State) (c : Cause) (info : Word) :
    sameMachine s ((afterFetch s).raise c info) :=
  ⟨fun r => s.readReg_noteDevice _ _ r, s.noteDevice_pc _ _, s.noteDevice_mem _ _, s.noteDevice_platform _ _⟩

/-- An instruction that completes records no fault. -/
theorem CompletesIn.fault_eq_none {s t : State} {i : Instr} (h : CompletesIn (afterFetch s) i t) (hs : s.fault = none) :
    t.fault = none := by
  rw [h.fault, State.noteDevice_fault, hs]

/-- Settles O23: every case of a step but completion raises, which leaves the rest of the machine. -/
theorem faultsArePrecise : Obligations.FaultsArePrecise := by
  intro s t h hrecorded
  obtain ⟨hs, heffect⟩ := stepEffect_of_step h
  refine ⟨hs, ?_⟩
  cases heffect with
  | misaligned | notFetchable => exact (s.raise_takesFault _ _).2.1
  | illegal | refused => exact sameMachine_raise_afterFetch s _ _
  | completed _ _ _ hdone => exact absurd (hdone.fault_eq_none hs) hrecorded

theorem nextPc_eq_or_jalr (s : State) (i : Instr) :
    nextPc s i = s.pc + 4 ∨ ∃ rd rs1 imm, i = .jalr rd rs1 imm := by
  cases i with
  | jalr rd rs1 imm => exact .inr ⟨rd, rs1, imm, rfl⟩
  | _ => exact .inl rfl

/-- Settles O24: a step that records no fault completes an instruction, and `nextPc` says where. -/
theorem onlyJalrLeavesSequence : Obligations.OnlyJalrLeavesSequence := by
  intro s t h hnone
  obtain ⟨-, heffect⟩ := stepEffect_of_step h
  cases heffect with
  | misaligned | notFetchable | illegal | refused => cases hnone
  | completed _ i hw hdone =>
    obtain hseq | ⟨rd, rs1, imm, rfl⟩ := nextPc_eq_or_jalr (afterFetch s) i
    · exact .inl (by rw [hdone.pc, hseq, State.noteDevice_pc])
    · exact .inr ⟨rd, rs1, imm, hw⟩

/-! ### The causes of a refused access (R94 to R97) -/

theorem State.effectiveAddress_noteDevice (s : State) (e : DeviceAccess) (as : List Word) (rs1 : Reg) (imm : Int) :
    (s.noteDevice e as).effectiveAddress rs1 imm = s.effectiveAddress rs1 imm := by
  rw [State.effectiveAddress, State.readReg_noteDevice, State.effectiveAddress]

theorem cause_of_memReadByte {s : State} {a : Word} {c : Cause} (h : s.memReadByte a = .raises c) :
    c = .loadAccessFault ∧ readable s.platform a = false := by
  obtain ⟨-, hm⟩ | ⟨hperm, hm⟩ := s.memReadByte_cases a
  · cases hm.symm.trans h
  · cases hm.symm.trans h
    exact ⟨rfl, hperm⟩

theorem cause_of_memReadWord {s : State} {a : Word} {c : Cause} (h : s.memReadWord a = .raises c) :
    (c = .loadAddressMisaligned ∧ aligned4 a = false ∧ s.platform.misalignedWord = .fault) ∨
      (c = .loadAccessFault ∧ ∃ k : Fin 4, readable s.platform (byteAddr a k) = false) := by
  obtain ⟨hmis, hm⟩ | ⟨-, -, hm⟩ | ⟨-, hperm, hm⟩ := s.memReadWord_cases a
  · cases hm.symm.trans h
    exact .inl ⟨rfl, (misalignmentFaults_eq_true_iff _ _).1 hmis⟩
  · cases hm.symm.trans h
  · cases hm.symm.trans h
    exact .inr ⟨rfl, (all_wordAddrs_eq_false_iff _ _).1 hperm⟩

theorem cause_of_memWriteByte {s : State} {a : Word} {b : Byte} {c : Cause} (h : s.memWriteByte a b = .raises c) :
    c = .storeAccessFault ∧ writable s.platform a = false := by
  obtain ⟨-, hm⟩ | ⟨hperm, hm⟩ := s.memWriteByte_cases a b
  · cases hm.symm.trans h
  · cases hm.symm.trans h
    exact ⟨rfl, hperm⟩

theorem cause_of_memWriteWord {s : State} {a v : Word} {c : Cause} (h : s.memWriteWord a v = .raises c) :
    (c = .storeAddressMisaligned ∧ aligned4 a = false ∧ s.platform.misalignedWord = .fault) ∨
      (c = .storeAccessFault ∧ ∃ k : Fin 4, writable s.platform (byteAddr a k) = false) := by
  obtain ⟨hmis, hm⟩ | ⟨-, -, hm⟩ | ⟨-, hperm, hm⟩ := s.memWriteWord_cases a v
  · cases hm.symm.trans h
    exact .inl ⟨rfl, (misalignmentFaults_eq_true_iff _ _).1 hmis⟩
  · cases hm.symm.trans h
  · cases hm.symm.trans h
    exact .inr ⟨rfl, (all_wordAddrs_eq_false_iff _ _).1 hperm⟩

/-- A refused access of the fetched instruction is one that the table of R90 lists for it. -/
theorem raisedAsListed_of_refusesWith {s : State} {i : Instr} {c : Cause} {a : Word}
    (hw : decodeWord (s.wordAt s.pc) = .instr i) (h : refusesWith (afterFetch s) c a i) :
    raisedAsListed s { cause := c, pc := s.pc, value := a } := by
  cases i with
  | add | addi | lui | jalr => exact h.elim
  | lw rd rs1 imm =>
    obtain ⟨ha, hm⟩ := h
    rw [State.effectiveAddress_noteDevice] at ha
    obtain ⟨rfl, hcond⟩ | ⟨rfl, hcond⟩ := cause_of_memReadWord hm <;> rw [State.noteDevice_platform] at hcond
    · exact ⟨rd, rs1, imm, hw, ha, hcond⟩
    · exact .inl ⟨rd, rs1, imm, hw, ha, hcond⟩
  | lbu rd rs1 imm =>
    obtain ⟨ha, hm⟩ := h
    rw [State.effectiveAddress_noteDevice] at ha
    obtain ⟨rfl, hcond⟩ := cause_of_memReadByte hm
    rw [State.noteDevice_platform] at hcond
    exact .inr ⟨rd, rs1, imm, hw, ha, hcond⟩
  | sw rs2 rs1 imm =>
    obtain ⟨ha, hm⟩ := h
    rw [State.effectiveAddress_noteDevice] at ha
    obtain ⟨rfl, hcond⟩ | ⟨rfl, hcond⟩ := cause_of_memWriteWord hm <;> rw [State.noteDevice_platform] at hcond
    · exact ⟨rs2, rs1, imm, hw, ha, hcond⟩
    · exact .inl ⟨rs2, rs1, imm, hw, ha, hcond⟩
  | sb rs2 rs1 imm =>
    obtain ⟨ha, hm⟩ := h
    rw [State.effectiveAddress_noteDevice] at ha
    obtain ⟨rfl, hcond⟩ := cause_of_memWriteByte hm
    rw [State.noteDevice_platform] at hcond
    exact .inr ⟨rs2, rs1, imm, hw, ha, hcond⟩

/-- Settles O22: the fetch's and the decoder's faults by the cases of `StepEffect`, the rest by
`raisedAsListed_of_refusesWith`. -/
theorem faultsComeFromTheirCauses : Obligations.FaultsComeFromTheirCauses := by
  intro s t r h hr
  obtain ⟨hs, heffect⟩ := stepEffect_of_step h
  cases heffect with
  | misaligned hpc => cases hr; exact ⟨rfl, hpc, rfl⟩
  | notFetchable hpc hperm => cases hr; exact ⟨rfl, hpc, hperm, rfl⟩
  | illegal hfetch hw => cases hr; exact ⟨s.noteDevice_pc _ _, hfetch, hw, rfl⟩
  | refused _ _ hw haccess =>
    rw [State.raise_fault, State.noteDevice_pc] at hr
    cases hr
    exact ⟨rfl, raisedAsListed_of_refusesWith hw haccess⟩
  | completed _ _ _ hdone => cases (hdone.fault_eq_none hs).symm.trans hr

end Sys2Proof.Machine
end

section
/-! PROOFS. The invariant of every step, and what a step can change in memory. The part of the invariant about a
recorded fault follows from `faultsComeFromTheirCauses` and `faultsArePrecise`; the rest is the pc and the memory of
an instruction that completes. -/

namespace Sys2Proof.Machine

open Sys2Proof.Safety

/-! ### A recorded fault agrees with its machine (R92 to R97) -/

/-- Only the check of the pc itself records a fault at a misaligned pc (R98). -/
theorem aligned4_of_fault {s t : State} {r : FaultRecord} (h : step s = .next t) (hr : t.fault = some r)
    (hc : r.cause ≠ .instructionAddressMisaligned) : aligned4 s.pc = true := by
  obtain ⟨-, heffect⟩ := stepEffect_of_step h
  cases heffect with
  | misaligned => cases hr; exact absurd rfl hc
  | notFetchable hpc => exact hpc
  | illegal hfetch | refused hfetch | completed hfetch => exact ((fetchOk_iff s).1 hfetch).1

/-- A fault that the table lists is one that agrees with the machine it is recorded in. -/
theorem recordOk_of_raisedAsListed {s t : State} {r : FaultRecord} (hr : t.fault = some r) (hsame : sameMachine s t)
    (hpc : r.pc = s.pc) (hlisted : raisedAsListed s r)
    (haligned : r.cause ≠ .instructionAddressMisaligned → aligned4 s.pc = true) : recordOk t = true := by
  obtain ⟨-, htpc, -, hplat⟩ := hsame
  obtain ⟨c, pc, value⟩ := r
  obtain rfl : pc = s.pc := hpc
  cases c with
  | instructionAddressMisaligned =>
    obtain ⟨hmis, rfl⟩ := hlisted
    simp [recordOk, hr, htpc, hmis]
  | instructionAccessFault =>
    obtain ⟨halign, -, rfl⟩ := hlisted
    simp [recordOk, hr, htpc, halign]
  | illegalInstruction =>
    obtain ⟨-, hw, rfl⟩ := hlisted
    simp [recordOk, hr, htpc, hw, haligned]
  | loadAddressMisaligned =>
    obtain ⟨rd, rs1, imm, -, -, hcond⟩ := hlisted
    simp [recordOk, hr, htpc, hplat, (misalignmentFaults_eq_true_iff _ _).2 hcond, haligned]
  | storeAddressMisaligned =>
    obtain ⟨rs2, rs1, imm, -, -, hcond⟩ := hlisted
    simp [recordOk, hr, htpc, hplat, (misalignmentFaults_eq_true_iff _ _).2 hcond, haligned]
  | loadAccessFault | storeAccessFault => simp [recordOk, hr, htpc, haligned]

/-- Whatever fault a step has recorded, none or one, agrees with the machine after it. -/
theorem recordOk_of_step {s t : State} (h : step s = .next t) : recordOk t = true := by
  cases hr : t.fault with
  | none => simp [recordOk, hr]
  | some r =>
    obtain ⟨hpc, hlisted⟩ := faultsComeFromTheirCauses s t r h hr
    obtain ⟨-, hsame⟩ := faultsArePrecise s t h (by simp [hr])
    exact recordOk_of_raisedAsListed hr hsame hpc hlisted (aligned4_of_fault h hr)

/-! ### The pc and the memory of a completed instruction (R15, R80, R23) -/

/-- Bit 0 of the pc stays clear: 4 is even, and JALR clears it (R92). -/
theorem nextPc_even {s : State} (h : s.pc.getLsbD 0 = false) (i : Instr) : (nextPc s i).getLsbD 0 = false := by
  obtain hseq | ⟨rd, rs1, imm, rfl⟩ := nextPc_eq_or_jalr s i
  · rw [hseq, BitVec.getLsbD_add (by decide), h, BitVec.carry_zero]
    rfl
  · exact clearBit0_getLsbD _ (by decide)

/-- The memory that an instruction leaves is in canonical form. -/
theorem wf_of_leavesMem {s : State} (h : s.mem.wf = true) {i : Instr} {m : Memory} (hm : leavesMem s m i) :
    m.wf = true := by
  cases i with
  | sw =>
    obtain ⟨-, rfl⟩ := hm
    exact s.storeWordAccess_wf _ _ h
  | sb =>
    obtain ⟨-, rfl⟩ := hm
    exact s.putByte_wf _ _ h
  | _ => exact (congrArg Memory.wf hm).trans h

/-- Settles O26: a fault leaves pc and memory (`faultsArePrecise`), a completed instruction leaves them by
`nextPc_even` and `wf_of_leavesMem`, and the record is `recordOk_of_step`. -/
theorem stepKeepsInvariant : Obligations.StepKeepsInvariant := by
  rintro s t ⟨hwf, heven, -⟩ h
  obtain ⟨-, heffect⟩ := stepEffect_of_step h
  refine ⟨?_, ?_, recordOk_of_step h⟩
  · cases heffect with
    | misaligned | notFetchable => exact hwf
    | illegal | refused => rwa [State.raise_mem, State.noteDevice_mem]
    | completed _ _ _ hdone => exact wf_of_leavesMem (by rwa [State.noteDevice_mem]) hdone.mem
  · cases heffect with
    | misaligned | notFetchable => exact heven
    | illegal | refused => rwa [State.raise_pc, State.noteDevice_pc]
    | completed _ i _ hdone =>
      rw [hdone.pc]
      exact nextPc_even (by rwa [State.noteDevice_pc]) i

/-! ### The base case (R110) -/

theorem inv_resetWith {p : Platform} (h : platformOk p = true) (regs : Vector Word 15) (image : List Host.Cell) :
    Inv (State.resetWith p regs image) := by
  simp only [platformOk, Bool.and_eq_true] at h
  obtain ⟨⟨⟨-, hpc⟩, -⟩, -⟩ := h
  exact ⟨Memory.wf_ofImage image, ((aligned4_iff _).1 hpc).1, rfl⟩

/-- Settles O27: `State.reset` is one of the resets, of a platform that meets the constraints. -/
theorem resetMeetsInvariant : Obligations.ResetMeetsInvariant :=
  ⟨State.reset_eq ▸ inv_resetWith (by decide) _ _, fun _ regs image h => inv_resetWith h regs image⟩

/-! ### The bytes of memory that a step can change (R20 to R23, R30) -/

/-- Address `a` is one that the instruction stores to. -/
def storesTo (s : State) (a : Word) : Instr → Prop
  | .sw _ rs1 imm => ∃ k : Fin 4, a = byteAddr (s.effectiveAddress rs1 imm) k
  | .sb _ rs1 imm => a = s.effectiveAddress rs1 imm
  | _ => False

theorem writable_byteAddr_of_storeWordOk {p : Platform} {a : Word} (h : storeWordOk p a = true) (k : Fin 4) :
    writable p (byteAddr a k) = true := by
  obtain ⟨-, hperm⟩ := (storeWordOk_iff p a).1 h
  by_contra hk
  exact absurd ((all_wordAddrs_eq_false_iff a _).2 ⟨k, eq_false_of_ne_true hk⟩) (by simp [hperm])

/-- A byte that an instruction has changed is one that it stores to, writable and in main memory. -/
theorem storesTo_of_read_ne {s : State} {i : Instr} {m : Memory} {b : Nat} (hm : leavesMem s m i)
    (hb : m.read b ≠ s.mem.read b) :
    ∃ a : Word, b = a.toNat ∧ storesTo s a i ∧ writable s.platform a = true ∧ isDevice s.platform a = false := by
  cases i with
  | sw rs2 rs1 imm =>
    obtain ⟨hok, rfl⟩ := hm
    by_cases hk : ∃ k : Fin 4, b = (byteAddr (s.effectiveAddress rs1 imm) k).toNat
    · obtain ⟨k, rfl⟩ := hk
      rw [State.read_storeWordAccess_byteAddr, ite_ne_right_iff] at hb
      exact ⟨_, rfl, ⟨k, rfl⟩, writable_byteAddr_of_storeWordOk hok k, hb.1⟩
    · exact absurd (s.read_storeWordAccess_of_ne _ _ b (not_exists.1 hk)) hb
  | sb rs2 rs1 imm =>
    obtain ⟨hok, rfl⟩ := hm
    rw [State.read_putByte, ite_ne_right_iff] at hb
    obtain ⟨⟨hmain, rfl⟩, -⟩ := hb
    exact ⟨_, rfl, rfl, hok, hmain⟩
  | _ => exact absurd (congrArg (Memory.read · b) hm) hb

/-- A byte that a step has changed is one that the fetched instruction stores to, writable and in main memory. -/
theorem stored_of_step_read_ne {s t : State} {b : Nat} (h : step s = .next t) (hb : t.mem.read b ≠ s.mem.read b) :
    ∃ i a, decodeWord (s.wordAt s.pc) = .instr i ∧ b = a.toNat ∧ storesTo (afterFetch s) a i ∧
      writable s.platform a = true ∧ isDevice s.platform a = false := by
  obtain ⟨-, heffect⟩ := stepEffect_of_step h
  cases heffect with
  | misaligned | notFetchable => exact absurd rfl hb
  | illegal | refused => exact absurd (congrArg (Memory.read · b) (s.noteDevice_mem _ _)) hb
  | completed _ i hw hdone =>
    obtain ⟨a, rfl, hstore, hperm, hmain⟩ := storesTo_of_read_ne hdone.mem (by rwa [State.noteDevice_mem])
    rw [State.noteDevice_platform] at hperm hmain
    exact ⟨i, a, hw, rfl, hstore, hperm, hmain⟩

/-- Settles O30: a changed byte would be writable and in main memory. -/
theorem unwritableMemoryStays : Obligations.UnwritableMemoryStays := by
  intro s t a h hprotected
  by_contra hb
  obtain ⟨_, a', -, ha, -, hperm, hmain⟩ := stored_of_step_read_ne h hb
  obtain rfl : a = a' := BitVec.eq_of_toNat_eq ha
  simp [hperm, hmain] at hprotected

/-- Settles O31: `storesTo` holds of SW and SB alone. -/
theorem onlyStoresWriteMemory : Obligations.OnlyStoresWriteMemory := by
  intro s t b h hb
  obtain ⟨i, a, hw, rfl, hstore, -⟩ := stored_of_step_read_ne h hb
  cases i with
  | sw rs2 rs1 imm =>
    obtain ⟨k, rfl⟩ := hstore
    exact .inl ⟨rs2, rs1, imm, hw, k, by rw [State.effectiveAddress_noteDevice]⟩
  | sb rs2 rs1 imm =>
    obtain rfl := hstore
    exact .inr ⟨rs2, rs1, imm, hw, by rw [State.effectiveAddress_noteDevice]⟩
  | add | addi | lui | lw | lbu | jalr => exact hstore.elim

end Sys2Proof.Machine
end

section
/-! PROOFS. Reset (spec/70_reset_and_hazards.md, section 1) and SB (spec/41_load_store.md), with the model's device
bytes (log entry 5). -/

namespace Sys2Proof.Machine

open Sys2Proof.Safety

/-! ### Reset (R110, R112) -/

/-- The loader leaves at each address the byte of the first cell for it (R112). -/
theorem Memory.read_ofImage (image : List Host.Cell) (a : Nat) :
    (Memory.ofImage image).read a = (image.find? (fun c => decide (c.1 % 4294967296 = a))).map Prod.snd := by
  induction image with
  | nil => rfl
  | cons c cells ih =>
    obtain ⟨k, v⟩ := c
    rw [Memory.read_ofImage_cons, List.find?_cons]
    by_cases h : k % 4294967296 = a
    · simp [h]
    · simp [h, Ne.symm h, ih]

theorem readReg_resetWith_succ (p : Platform) (regs : Vector Word 15) (image : List Host.Cell) (k : Fin 15) :
    (State.resetWith p regs image).readReg k.succ = regs[k] := by
  rw [State.readReg, if_neg (Fin.succ_ne_zero k)]
  rfl

theorem fetchOk_resetWith {p : Platform} (h : platformOk p = true) (regs : Vector Word 15) (image : List Host.Cell) :
    fetchOk (State.resetWith p regs image) = true := by
  simp only [platformOk, Bool.and_eq_true] at h
  obtain ⟨⟨⟨-, hpc⟩, hperm⟩, -⟩ := h
  exact (fetchOk_iff _).2 ⟨hpc, hperm⟩

/-- Settles O28: the fields are reset's own, memory is `Memory.read_ofImage`, and the first step is
`stepRunsDecodedInstruction` at the reset pc. -/
theorem resetEstablishesItsState : Obligations.ResetEstablishesItsState := by
  rintro p regs image s rfl
  refine ⟨rfl, rfl, rfl, State.readReg_zero _, readReg_resetWith_succ p regs image, Memory.read_ofImage image,
    fun i hp hplain hw => ?_⟩
  exact (stepRunsDecodedInstruction _ i rfl (fetchOk_resetWith hp regs image) hw).2 hplain

/-! ### A byte access that is granted or refused (R22, R23) -/

theorem State.memWriteByte_of_granted {s : State} {a : Word} (h : writable s.platform a = true) (b : Byte) :
    s.memWriteByte a b = .ok (s.storeByteAccess a b) := by
  rw [State.memWriteByte, if_pos h]

theorem State.memWriteByte_of_refused {s : State} {a : Word} (h : writable s.platform a = false) (b : Byte) :
    s.memWriteByte a b = .raises .storeAccessFault := by
  simp only [State.memWriteByte, h, Bool.false_eq_true, if_false]

/-- A device byte reads as the free value of the device accesses made so far (log entry 5). -/
theorem State.byteAt_of_device {s : State} {a : Word} (h : isDevice s.platform a = true) :
    s.byteAt a = Config.deviceByte s.deviceLog a.toNat := by
  rw [State.byteAt, if_pos h]

/-- A byte stored to a device is not held in memory (log entry 5). -/
theorem State.putByte_of_device {s : State} {a : Word} (h : isDevice s.platform a = true) (b : Byte) :
    s.putByte a b = s := by
  rw [State.putByte, if_pos h]

/-- A readable byte is loaded, zero-extended (R72). -/
theorem exec_lbu_granted {rd rs1 : Reg} {imm : Int} {s : State} {a : Word} (ha : s.effectiveAddress rs1 imm = a)
    (hok : readable s.platform a = true) :
    exec (.lbu rd rs1 imm) s = .next ((s.loadByteAccess a).2.retire rd ((s.byteAt a).setWidth 32)) := by
  subst ha
  exact exec_lbu_of_ok (State.memReadByte_of_granted hok)

theorem State.loadByte_retire_writesReg (s : State) (a : Word) (rd : Reg) (v : Word) :
    writesReg rd v s ((s.loadByteAccess a).2.retire rd v) := by
  intro r
  rw [State.readReg_retire, State.readReg_loadByteAccess]

/-- To a writable byte, SB makes one byte access with bits 7:0 of x[rs2] (R74). -/
theorem exec_sb_granted {rs2 rs1 : Reg} {imm : Int} {s : State} {a : Word} (ha : s.effectiveAddress rs1 imm = a)
    (hok : writable s.platform a = true) :
    exec (.sb rs2 rs1 imm) s = .next (s.storeByteAccess a (byteOf (s.readReg rs2) 0)).advance := by
  subst ha
  exact exec_sb_of_ok (State.memWriteByte_of_granted hok _)

/-! ### SB and the device bytes -/

/-- Settles O7, as O6: the stored byte and the frame over memory by `State.read_putByte`. -/
theorem sbStoresByte : Obligations.SbStoresByte := by
  refine ⟨fun w hsel => illegalWord_of_select_or (.sb 0 0 0) hsel ⟨rfl, rfl⟩ ⟨rfl, rfl⟩,
    fun rs2 rs1 imm hlo hhi => ?_⟩
  have himm : immFits imm = true := (immFits_iff imm).2 ⟨hlo, hhi⟩
  refine ⟨decodeWord_encode (i := .sb rs2 rs1 imm) himm, fun s a ha => ?_⟩
  subst ha
  refine ⟨s.effectiveAddress_eq himm rs1, fun hok => ?_, fun hperm => ?_⟩
  · refine ⟨_, exec_sb_granted rfl hok, by simp, by simp, by simp, by simp, fun hmain => ⟨?_, ?_⟩, fun hdev => ?_,
      fun b hb => ?_⟩
    · rw [State.advance_mem, State.storeByteAccess_mem, State.read_putByte, if_pos ⟨hmain, rfl⟩]
      rfl
    · rw [State.advance_deviceLog, State.storeByteAccess_deviceLog, if_neg (by simp [hmain])]
    · rw [State.advance_mem, State.storeByteAccess_mem, State.putByte_of_device hdev]
    · rw [State.advance_mem, State.storeByteAccess_mem, State.read_putByte, if_neg fun h => hb h.2]
  · exact ⟨_, exec_sb_of_raises (State.memWriteByte_of_refused hperm _), s.raise_takesFault _ _⟩

/-- Settles O36: a device byte reads as the free value of the record so far, and each access of it is recorded. -/
theorem deviceBytesAreFree : Obligations.DeviceBytesAreFree := by
  refine ⟨fun rd rs1 imm s a ha hok hdev => ?_, fun rs2 rs1 imm s a ha hok hdev => ?_⟩
  · refine ⟨_, exec_lbu_granted ha.symm hok, ?_, by simp, ?_⟩
    · rw [State.byteAt_of_device hdev]
      exact s.loadByte_retire_writesReg a rd _
    · rw [State.retire_deviceLog, State.loadByteAccess_deviceLog, if_pos hdev]
  · refine ⟨_, exec_sb_granted ha.symm hok, ?_, ?_⟩
    · rw [State.advance_mem, State.storeByteAccess_mem, State.putByte_of_device hdev]
    · rw [State.advance_deviceLog, State.storeByteAccess_deviceLog, if_pos hdev]

end Sys2Proof.Machine
end

section
/-! PROOFS. Memory across instructions (spec/20_memory.md, sections 3, 8 and 11): a store, then a load or a fetch of
its bytes. All of it is said byte by byte, with `storedByte` as what a main byte holds. -/

namespace Sys2Proof.Machine

open Sys2Proof.Safety

/-! ### What a store leaves in the bytes of a main word (R23, R24) -/

theorem isDevice_byteAddr_of_plainWord {p : Platform} {a : Word} (h : plainWord p a = true) (k : Fin 4) :
    isDevice p (byteAddr a k) = false := by
  simp only [plainWord, wordAddrs_eq_map, List.all_map, List.all_eq_true] at h
  simpa using h k (List.mem_finRange k)

theorem storedByte_setPc (s : State) (pc a : Word) : storedByte (s.setPc pc) a = storedByte s a := rfl

theorem storedByte_advance (s : State) (a : Word) : storedByte s.advance a = storedByte s a := rfl

theorem storedByte_storeWordAccess {s : State} {a : Word} (h : plainWord s.platform a = true) (v : Word) (k : Fin 4) :
    storedByte (s.storeWordAccess a v) (byteAddr a k) = byteOf v k := by
  rw [storedByte, State.read_storeWordAccess_byteAddr, if_pos (isDevice_byteAddr_of_plainWord h k), Option.getD_some]

theorem storedByte_storeByteAccess {s : State} {a : Word} (h : plainWord s.platform a = true) (b : Byte)
    (j k : Fin 4) :
    storedByte (s.storeByteAccess (byteAddr a k) b) (byteAddr a j) =
      if j = k then b else storedByte s (byteAddr a j) := by
  simp only [storedByte, State.storeByteAccess_mem, State.read_putByte, isDevice_byteAddr_of_plainWord h k, true_and,
    byteAddr_toNat_inj]
  split <;> rfl

/-! ### Granted word accesses, run (R71, R73) -/

/-- A granted LW loads the word of its one access or of its four. -/
theorem exec_lw_granted {rd rs1 : Reg} {imm : Int} {s : State} {a : Word} (ha : s.effectiveAddress rs1 imm = a)
    (hok : loadWordOk s.platform a = true) :
    exec (.lw rd rs1 imm) s = .next ((s.loadWordAccess a).2.retire rd (s.loadWordAccess a).1) := by
  subst ha
  exact exec_lw_of_ok (State.memReadWord_of_granted hok)

theorem State.loadWord_retire_writesReg (s : State) (a : Word) (rd : Reg) (v : Word) :
    writesReg rd v s ((s.loadWordAccess a).2.retire rd v) := by
  intro r
  rw [State.readReg_retire, State.readReg_loadWordAccess]

/-- A granted SW stores the word in its one access or in its four. -/
theorem exec_sw_granted {rs2 rs1 : Reg} {imm : Int} {s : State} {a : Word} (ha : s.effectiveAddress rs1 imm = a)
    (hok : storeWordOk s.platform a = true) :
    exec (.sw rs2 rs1 imm) s = .next (s.storeWordAccess a (s.readReg rs2)).advance := by
  subst ha
  exact exec_sw_of_ok (State.memWriteWord_of_granted hok _)

/-! ### Load, byte load and fetch after a store -/

/-- Settles O32: each byte of the loaded word is what the store left there. -/
theorem loadReturnsStoredWord : Obligations.LoadReturnsStoredWord := by
  intro rs2 rs1 rd rs1' imm imm' s t a ha hst hld hplain hsw ha'
  cases (exec_sw_granted ha.symm hst).symm.trans hsw
  refine ⟨_, exec_lw_granted ha' (by simpa using hld), ?_⟩
  have hword : ((s.storeWordAccess a (s.readReg rs2)).advance.loadWordAccess a).1 = s.readReg rs2 := by
    refine word_eq_of_bytes _ _ fun k => ?_
    rw [State.byteOf_loadWordAccess_of_main _ _ _ (by simpa using isDevice_byteAddr_of_plainWord hplain k),
      storedByte_advance, storedByte_storeWordAccess hplain]
  rw [hword]
  exact State.loadWord_retire_writesReg _ a rd _

/-- Settles O33: byte k of a stored word is `byteOf v k`, and a byte store changes that byte of the word alone. -/
theorem mixedWidthIsLittleEndian : Obligations.MixedWidthIsLittleEndian := by
  refine ⟨?_, ?_⟩
  · intro rs2 rs1 rd rs1' imm imm' s t a k ha hst hplain hperm hsw ha'
    cases (exec_sw_granted ha.symm hst).symm.trans hsw
    refine ⟨_, exec_lbu_granted ha' (by simpa using hperm), ?_⟩
    rw [State.byteAt_eq_storedByte rfl rfl (by simpa using isDevice_byteAddr_of_plainWord hplain k),
      storedByte_advance, storedByte_storeWordAccess hplain]
    exact State.loadByte_retire_writesReg _ _ rd _
  · intro rs2 rs1 rd rs1' imm imm' s t a k ha hperm hld hplain hsb ha'
    cases (exec_sb_granted ha.symm hperm).symm.trans hsb
    refine ⟨_, _, exec_lw_granted ha' (by simpa using hld), State.loadWord_retire_writesReg _ a rd _, fun j => ?_⟩
    rw [State.byteOf_loadWordAccess_of_main _ _ _ (by simpa using isDevice_byteAddr_of_plainWord hplain j),
      storedByte_advance, storedByte_storeByteAccess hplain]
    rfl

theorem byteOf_wordAt (s : State) (a : Word) (k : Fin 4) : byteOf (s.wordAt a) k = s.byteAt (byteAddr a k) := by
  rw [← byteOf_leWord_apply (fun j => s.byteAt (byteAddr a j)) k]
  simp [State.wordAt, byteAddr]

/-- Settles O34: the fetch reads the same bytes as a load, and touches no device byte. -/
theorem storedWordIsFetched : Obligations.StoredWordIsFetched := by
  intro rs2 rs1 imm s t a ha halign hst hplain hperm hsw
  cases (exec_sw_granted ha.symm hst).symm.trans hsw
  have hfetch : fetchOk ((s.storeWordAccess a (s.readReg rs2)).advance.setPc a) = true :=
    (fetchOk_iff _).2 ⟨halign, by simpa using hperm⟩
  have hword : ((s.storeWordAccess a (s.readReg rs2)).advance.setPc a).wordAt a = s.readReg rs2 := by
    refine word_eq_of_bytes _ _ fun k => ?_
    rw [byteOf_wordAt, State.byteAt_eq_storedByte rfl rfl (by simpa using isDevice_byteAddr_of_plainWord hplain k),
      storedByte_setPc, storedByte_advance, storedByte_storeWordAccess hplain]
  rw [State.fetch_of_fetchOk hfetch, afterFetch_of_plainWord (by simpa using hplain), State.setPc_pc, hword]

end Sys2Proof.Machine
end

section
/-! PROOFS. The atomicity of word accesses (spec/20_memory.md, section 5): what an access of a word adds to the
record of device accesses. A misaligned one is four byte accesses; `byteEvents_succ` says what each adds. -/

namespace Sys2Proof.Machine

open Sys2Proof.Safety

/-! ### One more byte access (R28) -/

/-- Byte access `k` adds its event to those of the accesses before it, if its byte is a device's. -/
theorem byteEvents_succ (p : Platform) (a : Word) (byte : Fin 4 → DeviceAccess) (k : Fin 4) :
    byteEvents p a byte (k.val + 1) =
      if isDevice p (byteAddr a k) then byte k :: byteEvents p a byte k.val else byteEvents p a byte k.val := by
  fin_cases k <;> simp [byteEvents, List.filter_cons] <;> split <;> rfl

/-- A record that starts as it was and gains each device byte's event in turn has gained `byteEvents`. -/
theorem log_eq_byteEvents {p : Platform} {a : Word} {byte : Fin 4 → DeviceAccess} {log : Nat → List DeviceAccess}
    (hstep : ∀ k : Fin 4, log (k.val + 1) = if isDevice p (byteAddr a k) then byte k :: log k.val else log k.val)
    (n : Nat) (hn : n ≤ 4) : log n = byteEvents p a byte n ++ log 0 := by
  induction n with
  | zero => rfl
  | succ n ih =>
    have hlog := hstep ⟨n, hn⟩
    have hevents := byteEvents_succ p a byte ⟨n, hn⟩
    rw [hlog, hevents, ih (Nat.le_of_succ_le hn)]
    split <;> rfl

/-- An aligned access of a word adds one event, if one of its bytes is a device's. -/
theorem noteDevice_log_eq_wordEvents {s : State} {a : Word} (ha : aligned4 a = true) (whole : DeviceAccess)
    (byte : Fin 4 → DeviceAccess) :
    (s.noteDevice whole (wordAddrs a)).deviceLog = wordEvents s.platform a whole byte ++ s.deviceLog := by
  have hplain : plainWord s.platform a = !(wordAddrs a).any (isDevice s.platform) := List.not_any_eq_all_not.symm
  rw [State.noteDevice_deviceLog, wordEvents, if_pos ha, hplain]
  cases (wordAddrs a).any (isDevice s.platform) <;> rfl

theorem wordEvents_of_misaligned {a : Word} (ha : aligned4 a = false) (p : Platform) (whole : DeviceAccess)
    (byte : Fin 4 → DeviceAccess) : wordEvents p a whole byte = byteEvents p a byte 4 := by
  rw [wordEvents, if_neg (by simp [ha])]

/-! ### The record of a load of a word -/

/-- The record after the first `n` byte accesses of a misaligned load. -/
theorem State.afterByteLoads_deviceLog (s : State) (a : Word) (n : Nat) (hn : n ≤ 4) :
    (s.afterByteLoads a n).deviceLog =
      byteEvents s.platform a (fun k => .load (byteAddr a k).toNat 1) n ++ s.deviceLog := by
  refine log_eq_byteEvents (log := fun n => (s.afterByteLoads a n).deviceLog) (fun k => ?_) n hn
  simp only [State.afterByteLoads, State.loadByteAccess_deviceLog, State.afterByteLoads_platform]

theorem State.loadWordAccess_deviceLog (s : State) (a : Word) :
    (s.loadWordAccess a).2.deviceLog =
      wordEvents s.platform a (.load a.toNat 4) (fun k => .load (byteAddr a k).toNat 1) ++ s.deviceLog := by
  cases ha : aligned4 a with
  | true => rw [State.loadWordAccess, if_pos ha, noteDevice_log_eq_wordEvents ha]
  | false =>
    have hlast : (s.loadWordAccess a).2 = s.afterByteLoads a 4 := by
      simp [State.loadWordAccess, ha, State.afterByteLoads]
    rw [hlast, s.afterByteLoads_deviceLog a 4 (Nat.le_refl 4), wordEvents_of_misaligned ha]

/-- A device byte of a loaded word is the free value of the accesses before its own (R28, log entry 5). -/
theorem State.byteOf_loadWordAccess_of_device {s : State} {a : Word} {k : Fin 4}
    (hk : isDevice s.platform (byteAddr a k) = true) :
    byteOf (s.loadWordAccess a).1 k =
      Config.deviceByte
        (if aligned4 a = true then s.deviceLog
          else byteEvents s.platform a (fun j => .load (byteAddr a j).toNat 1) k.val ++ s.deviceLog)
        (byteAddr a k).toNat := by
  cases ha : aligned4 a with
  | true => rw [s.byteOf_loadWordAccess_of_aligned ha, State.byteAt_of_device hk, if_pos rfl]
  | false =>
    rw [s.byteOf_loadWordAccess_of_misaligned ha, State.byteAt_of_device (by simpa using hk),
      s.afterByteLoads_deviceLog a k (Nat.le_of_lt k.isLt), if_neg Bool.false_ne_true]

/-! ### The record of a store of a word -/

/-- The state after the first `n` byte accesses of the store of `v` at `a` (R28). -/
def State.afterByteStores (s : State) (a v : Word) : Nat → State
  | 0 => s
  | n + 1 => (s.afterByteStores a v n).storeByteAccess (a + BitVec.ofNat 32 n) (byteOf v n)

@[simp] theorem State.afterByteStores_platform (s : State) (a v : Word) (n : Nat) :
    (s.afterByteStores a v n).platform = s.platform := by
  induction n with
  | zero => rfl
  | succ n ih => rw [State.afterByteStores, State.storeByteAccess_platform, ih]

/-- The record after the first `n` byte accesses of a misaligned store. -/
theorem State.afterByteStores_deviceLog (s : State) (a v : Word) (n : Nat) (hn : n ≤ 4) :
    (s.afterByteStores a v n).deviceLog =
      byteEvents s.platform a (fun k => .store (byteAddr a k).toNat 1 ((byteOf v k).setWidth 32)) n ++ s.deviceLog := by
  refine log_eq_byteEvents (log := fun n => (s.afterByteStores a v n).deviceLog) (fun k => ?_) n hn
  simp only [State.afterByteStores, State.storeByteAccess_deviceLog, State.afterByteStores_platform]

theorem State.storeWordAccess_deviceLog (s : State) (a v : Word) :
    (s.storeWordAccess a v).deviceLog =
      wordEvents s.platform a (.store a.toNat 4 v)
        (fun k => .store (byteAddr a k).toNat 1 ((byteOf v k).setWidth 32)) ++ s.deviceLog := by
  cases ha : aligned4 a with
  | true =>
    rw [State.storeWordAccess, if_pos ha, noteDevice_log_eq_wordEvents ha, State.putWord_platform,
      State.putWord_deviceLog]
  | false =>
    have hlast : s.storeWordAccess a v = s.afterByteStores a v 4 := by
      simp [State.storeWordAccess, ha, State.afterByteStores]
    rw [hlast, s.afterByteStores_deviceLog a v 4 (Nat.le_refl 4), wordEvents_of_misaligned ha]

/-- A word of which every byte is a device's is not held in memory (log entry 5). -/
theorem State.storeWordAccess_mem_of_device {s : State} {a : Word}
    (h : ∀ k : Fin 4, isDevice s.platform (byteAddr a k) = true) (v : Word) : (s.storeWordAccess a v).mem = s.mem := by
  have h0 : isDevice s.platform a = true := byteAddr_zero a ▸ h 0
  have h1 : isDevice s.platform (a + 1) = true := h 1
  have h2 : isDevice s.platform (a + 2) = true := h 2
  have h3 : isDevice s.platform (a + 3) = true := h 3
  simp only [State.storeWordAccess_mem, State.putWord, add32_eq, State.putByte_of_device, h0, h1, h2, h3]

/-- Settles O37: the records are `State.loadWordAccess_deviceLog` and `State.storeWordAccess_deviceLog`, the loaded
bytes `State.byteOf_loadWordAccess_of_device`. -/
theorem deviceWordAtomicity : Obligations.DeviceWordAtomicity := by
  refine ⟨fun rd rs1 imm s a ha hok => ?_, fun rs2 rs1 imm s a v ha hv hok => ?_⟩
  · exact ⟨_, _, exec_lw_granted ha.symm hok, s.loadWord_retire_writesReg a rd _, by simp,
      (State.retire_deviceLog _ _ _).trans (s.loadWordAccess_deviceLog a),
      fun k hdev => State.byteOf_loadWordAccess_of_device hdev⟩
  · subst hv
    refine ⟨_, exec_sw_granted ha.symm hok, fun k hdev => ?_, fun hdev => s.storeWordAccess_mem_of_device hdev _,
      s.storeWordAccess_deviceLog a _⟩
    rw [State.advance_mem, State.read_storeWordAccess_byteAddr, if_neg (by simp [hdev])]

end Sys2Proof.Machine
end

section
/-! PROOFS. What an instruction does not look at makes no difference to it: registers it does not name
(spec/10_state.md, section 1), and the setting of `MISALIGNED_WORD` where it makes no misaligned word access
(spec/20_memory.md, section 4). Both are one argument: a change of the state that leaves memory, the pc, the record of
device accesses and the address map alone commutes with every access, so with every instruction that reads the same
operands. -/

namespace Sys2Proof.Machine

open Sys2Proof.Safety

/-- A change `f` of the state that no memory access sees, and that commutes with what accesses, faults and jumps
change. -/
structure Unseen (f : State → State) : Prop where
  pc (s : State) : (f s).pc = s.pc
  mem (s : State) : (f s).mem = s.mem
  deviceLog (s : State) : (f s).deviceLog = s.deviceLog
  memMap (s : State) : (f s).platform.memMap = s.platform.memMap
  setPc (s : State) (a : Word) : (f s).setPc a = f (s.setPc a)
  raise (s : State) (c : Cause) (info : Word) : (f s).raise c info = f (s.raise c info)
  withMem (s : State) (m : Memory) : { f s with mem := m } = f { s with mem := m }
  withDeviceLog (s : State) (log : List DeviceAccess) : { f s with deviceLog := log } = f { s with deviceLog := log }

theorem unseen_writeReg (q : Reg) (v : Word) : Unseen (fun s => s.writeReg q v) where
  pc s := s.writeReg_pc q v
  mem s := s.writeReg_mem q v
  deviceLog s := s.writeReg_deviceLog q v
  memMap s := by rw [State.writeReg_platform]
  setPc s a := (s.setPc_writeReg a q v).symm
  raise s c info := by simp only [State.writeReg]; split <;> rfl
  withMem s m := by simp only [State.writeReg]; split <;> rfl
  withDeviceLog s log := by simp only [State.writeReg]; split <;> rfl

theorem unseen_withMisaligned (m : MisalignedWord) : Unseen (withMisaligned m) :=
  ⟨fun _ => rfl, fun _ => rfl, fun _ => rfl, fun _ => rfl, fun _ _ => rfl, fun _ _ _ => rfl, fun _ _ => rfl,
    fun _ _ => rfl⟩

/-- The result of an access passed through `g`; a fault stays a fault. -/
def Checked.map {α β : Type} (g : α → β) : Checked α → Checked β
  | .raises c => .raises c
  | .ok r => .ok (g r)

/-- The alignment check of a word access asks for the setting only at an address that is no multiple of 4 (R25). -/
theorem misalignmentFaults_congr {p q : Platform} {a : Word}
    (h : aligned4 a = true ∨ q.misalignedWord = p.misalignedWord) :
    misalignmentFaults q a = misalignmentFaults p a := by
  obtain halign | hset := h
  · simp [misalignmentFaults, halign]
  · rw [misalignmentFaults, hset, misalignmentFaults]

theorem effectiveAddress_congr {s t : State} {rs1 : Reg} (h : t.readReg rs1 = s.readReg rs1) (imm : Int) :
    t.effectiveAddress rs1 imm = s.effectiveAddress rs1 imm := by
  rw [State.effectiveAddress, h, State.effectiveAddress]

section
variable {f : State → State} (hf : Unseen f)
include hf

/-! ### The accesses -/

theorem Unseen.regionAt (s : State) (a : Word) : regionAt (f s).platform a = regionAt s.platform a := by
  rw [Machine.regionAt, hf.memMap, Machine.regionAt]

theorem Unseen.isDevice (s : State) : isDevice (f s).platform = isDevice s.platform := by
  funext a
  rw [Machine.isDevice, hf.regionAt, Machine.isDevice]

theorem Unseen.readable (s : State) : readable (f s).platform = readable s.platform := by
  funext a
  rw [Machine.readable, hf.regionAt, Machine.readable]

theorem Unseen.writable (s : State) : writable (f s).platform = writable s.platform := by
  funext a
  rw [Machine.writable, hf.regionAt, Machine.writable]

theorem Unseen.byteAt (s : State) (a : Word) : (f s).byteAt a = s.byteAt a := by
  rw [State.byteAt, hf.isDevice, hf.deviceLog, hf.mem, State.byteAt]

theorem Unseen.wordAt (s : State) (a : Word) : (f s).wordAt a = s.wordAt a := by
  simp only [State.wordAt, hf.byteAt]

theorem Unseen.noteDevice (s : State) (e : DeviceAccess) (as : List Word) :
    (f s).noteDevice e as = f (s.noteDevice e as) := by
  simp only [State.noteDevice, hf.isDevice, hf.deviceLog]
  split
  · exact hf.withDeviceLog s _
  · rfl

theorem Unseen.putByte (s : State) (a : Word) (b : Byte) : (f s).putByte a b = f (s.putByte a b) := by
  simp only [State.putByte, hf.isDevice, hf.mem]
  split
  · rfl
  · exact hf.withMem s _

theorem Unseen.putWord (s : State) (a v : Word) : (f s).putWord a v = f (s.putWord a v) := by
  simp only [State.putWord, hf.putByte]

theorem Unseen.loadByteAccess (s : State) (a : Word) :
    (f s).loadByteAccess a = ((s.loadByteAccess a).1, f (s.loadByteAccess a).2) := by
  simp only [State.loadByteAccess, hf.byteAt, hf.noteDevice]

theorem Unseen.loadWordAccess (s : State) (a : Word) :
    (f s).loadWordAccess a = ((s.loadWordAccess a).1, f (s.loadWordAccess a).2) := by
  simp only [State.loadWordAccess, hf.wordAt, hf.noteDevice, hf.loadByteAccess]
  split <;> rfl

theorem Unseen.storeByteAccess (s : State) (a : Word) (b : Byte) :
    (f s).storeByteAccess a b = f (s.storeByteAccess a b) := by
  simp only [State.storeByteAccess, hf.putByte, hf.noteDevice]

theorem Unseen.storeWordAccess (s : State) (a v : Word) : (f s).storeWordAccess a v = f (s.storeWordAccess a v) := by
  simp only [State.storeWordAccess, hf.putWord, hf.noteDevice, hf.storeByteAccess]
  split <;> rfl

/-! ### The checked accesses: for a word, where the alignment check answers the same -/

theorem Unseen.memReadByte (s : State) (a : Word) :
    (f s).memReadByte a = (s.memReadByte a).map (fun r => (r.1, f r.2)) := by
  simp only [State.memReadByte, hf.readable, hf.loadByteAccess]
  split <;> rfl

theorem Unseen.memReadWord {s : State} {a : Word}
    (h : aligned4 a = true ∨ (f s).platform.misalignedWord = s.platform.misalignedWord) :
    (f s).memReadWord a = (s.memReadWord a).map (fun r => (r.1, f r.2)) := by
  simp only [State.memReadWord, misalignmentFaults_congr h, hf.readable, hf.loadWordAccess]
  split_ifs <;> rfl

theorem Unseen.memWriteByte (s : State) (a : Word) (b : Byte) :
    (f s).memWriteByte a b = (s.memWriteByte a b).map f := by
  simp only [State.memWriteByte, hf.writable, hf.storeByteAccess]
  split <;> rfl

theorem Unseen.memWriteWord {s : State} {a : Word}
    (h : aligned4 a = true ∨ (f s).platform.misalignedWord = s.platform.misalignedWord) (v : Word) :
    (f s).memWriteWord a v = (s.memWriteWord a v).map f := by
  simp only [State.memWriteWord, misalignmentFaults_congr h, hf.writable, hf.storeWordAccess]
  split_ifs <;> rfl

/-! ### The instructions -/

theorem Unseen.advance (s : State) : (f s).advance = f s.advance := by
  rw [State.advance, hf.pc, hf.setPc, State.advance]

theorem Unseen.retire {rd : Reg} (hwrite : ∀ u v, (f u).writeReg rd v = f (u.writeReg rd v)) (s : State) (v : Word) :
    (f s).retire rd v = f (s.retire rd v) := by
  rw [State.retire, hwrite, hf.advance, State.retire]

/-- An instruction does the same after an unseen change, if that leaves the registers it reads, commutes with the
write of its destination, and leaves the setting of `MISALIGNED_WORD` wherever the instruction's alignment check
asks for it. -/
theorem Unseen.exec {i : Instr} {s : State} (hread : ∀ r ∈ sources i, (f s).readReg r = s.readReg r)
    (hwrite : ∀ rd, dest i = some rd → ∀ u v, (f u).writeReg rd v = f (u.writeReg rd v))
    (hset : wordAccessAligned s i = true ∨ (f s).platform.misalignedWord = s.platform.misalignedWord) :
    exec i (f s) = mapNext f (exec i s) := by
  cases i with
  | add rd rs1 rs2 =>
    rw [exec_add, execAdd, hread rs1 (by simp [sources]), hread rs2 (by simp [sources]), hf.retire (hwrite rd rfl)]
    rfl
  | addi rd rs1 imm =>
    rw [exec_addi, execAddi, hread rs1 (by simp [sources]), hf.retire (hwrite rd rfl)]
    rfl
  | lui rd imm =>
    rw [exec_lui, execLui, hf.retire (hwrite rd rfl)]
    rfl
  | lw rd rs1 imm =>
    rw [exec_lw, exec_lw, execLw, execLw, effectiveAddress_congr (hread rs1 (by simp [sources])), hf.memReadWord hset]
    cases s.memReadWord (s.effectiveAddress rs1 imm) with
    | raises c => exact congrArg _ (hf.raise s c _)
    | ok r => exact congrArg _ (hf.retire (hwrite rd rfl) r.2 r.1)
  | lbu rd rs1 imm =>
    rw [exec_lbu, exec_lbu, execLbu, execLbu, effectiveAddress_congr (hread rs1 (by simp [sources])), hf.memReadByte]
    cases s.memReadByte (s.effectiveAddress rs1 imm) with
    | raises c => exact congrArg _ (hf.raise s c _)
    | ok r => exact congrArg _ (hf.retire (hwrite rd rfl) r.2 _)
  | sw rs2 rs1 imm =>
    rw [exec_sw, exec_sw, execSw, execSw, effectiveAddress_congr (hread rs1 (by simp [sources])),
      hread rs2 (by simp [sources]), hf.memWriteWord hset]
    cases s.memWriteWord (s.effectiveAddress rs1 imm) (s.readReg rs2) with
    | raises c => exact congrArg _ (hf.raise s c _)
    | ok u => exact congrArg _ (hf.advance u)
  | sb rs2 rs1 imm =>
    rw [exec_sb, exec_sb, execSb, execSb, effectiveAddress_congr (hread rs1 (by simp [sources])),
      hread rs2 (by simp [sources]), hf.memWriteByte]
    cases s.memWriteByte (s.effectiveAddress rs1 imm) (byteOf (s.readReg rs2) 0) with
    | raises c => exact congrArg _ (hf.raise s c _)
    | ok u => exact congrArg _ (hf.advance u)
  | jalr rd rs1 imm =>
    rw [exec_jalr, execJalr, effectiveAddress_congr (hread rs1 (by simp [sources])), hwrite rd rfl, hf.setPc, hf.pc]
    rfl

end

/-! ### The two changes -/

/-- Writes to two registers can be made in either order. -/
theorem State.writeReg_comm {q r : Reg} (h : q ≠ r) (s : State) (v w : Word) :
    (s.writeReg q v).writeReg r w = (s.writeReg r w).writeReg q v := by
  refine State.eq_of_fields _ _ (fun p => ?_) (by simp) (by simp) (by simp) (by simp) (by simp)
  simp only [State.readReg_writeReg]
  by_cases hq : p = q
  · subst hq; simp [h]
  · simp [hq]

/-- Settles O10: a register write is an unseen change that commutes with the write of another register. -/
theorem onlyNamedRegistersMatter : Obligations.OnlyNamedRegistersMatter := by
  intro i s q v hsource hdest
  refine (unseen_writeReg q v).exec (fun r hr => ?_) (fun rd hrd u w => ?_) (.inr (by rw [State.writeReg_platform]))
  · rw [State.readReg_writeReg, if_neg]
    rintro ⟨rfl, -⟩
    exact hsource hr
  · refine State.writeReg_comm ?_ u v w
    rintro rfl
    exact hdest hrd

theorem writeReg_withMisaligned (m : MisalignedWord) (s : State) (r : Reg) (v : Word) :
    (withMisaligned m s).writeReg r v = withMisaligned m (s.writeReg r v) := by
  simp only [State.writeReg]
  split <;> rfl

/-- Settles O35: the setting is an unseen change, and an aligned word access does not ask for it. -/
theorem alignedAccessIgnoresSetting : Obligations.AlignedAccessIgnoresSetting := fun _ _ m haligned =>
  (unseen_withMisaligned m).exec (fun _ _ => rfl) (fun rd _ u v => writeReg_withMisaligned m u rd v) (.inl haligned)

end Sys2Proof.Machine
end
